-- ==== Sys2Proof/Word.lean ====
section
/-! DEFINITION. The bit vectors of the speed codec block: bit 0 is the least significant bit of every vector (R7). -/

namespace Sys2Proof

/-- A 64-bit binary64 pattern, the format of every port that carries a real number (R6 `REAL_W`, R38). -/
abbrev Real64 := BitVec 64

/-- The container of a packed code on `enc_code` and `dec_code` (R6 `CONT_W` and `W_DEC`, R37). -/
abbrev Code16 := BitVec 16

/-- A packed code itself, `{e, m}` (R31). -/
abbrev Code10 := BitVec 10

/-- The 70-bit operation word `OPW = {UOP, B, A}` (R41). -/
abbrev OpWord := BitVec 70

/-- One hexadecimal digit of a written operation word (R41). -/
abbrev Digit := BitVec 4

end Sys2Proof
end

