-- ==== Sys2Proof/Config.lean ====
section
/-! DEFINITION. What is fixed when the block is built (R5, R19) and the free values the spec leaves open (R9 `any_N`).
The widths of R6 are the types of Word.lean and of the ports in Machine/State.lean. -/

namespace Sys2Proof.Config

/-- `SPEED_MIN` (R5): inputs at or below it give code 0. -/
abbrev speedMin : Rat := 0

/-- `LIN_MAX` (R5): inputs at or below it, and above `SPEED_MIN`, take the linear branch. -/
abbrev linMax : Rat := 2

/-- `LIN_SCALE` (R5): the linear branch multiplies by 64. -/
abbrev linScale : Rat := 64

/-- `SPEED_MAX` (R5): inputs above it are clamped to it. -/
abbrev speedMax : Rat := 255

/-- `WINDOW` (R5): subtracted by ENC, added by DEC. -/
abbrev window : Rat := 128

/-- `EXP_BIAS` (R5): ENC scales by `2^(7 - e)`, DEC by `2^(e - 7)`. -/
abbrev expBias : Int := 7

/-- The exponent of DEC's bucket 0: its mantissa is scaled by `2^-6`, the inverse of `LIN_SCALE` (R5). -/
abbrev linExp : Int := -6

/-- `MANT_W` (R5): the width of the mantissa field. -/
abbrev mantW : Nat := 7

/-- `MANT_MASK` (R5). -/
abbrev mantMask : Nat := 0x7F

/-- `EXP_MASK` (R5), applied after the right shift by `MANT_W`. -/
abbrev expMask : Nat := 0x7

/-- `CODE_MAX` (R5): the saturation code. -/
abbrev codeMax : Nat := 1023

/-- FREE VALUE (assumption 4). The draw `any_10` of ENC on a NaN (R69, `NAN_POLICY` of R6), one for each evaluation. -/
opaque any10 : Nat → BitVec 10

/-- FREE VALUE (assumption 4). The draw `any_12` of ILOG2 outside its domain (R84), one for each evaluation. -/
opaque any12 : Nat → BitVec 12

/-- FREE VALUE (assumption 4). The draw `any_64` of SCALE outside representability (R92), one for each evaluation. -/
opaque any64 : Nat → BitVec 64

end Sys2Proof.Config
end

