-- ==== Sys2Proof/Machine/State.lean ====
section
/-! DEFINITION. The state of the model. The block itself holds nothing (R13 to R16): what stands here is the record of
port values that R13 (c) allows, the host's list of operations, the last result word, and the model's draw index. -/

namespace Sys2Proof.Machine

/-- The block raises no fault (R104): no constructor, so that no step can answer one. -/
inductive Fault where
deriving DecidableEq, Repr

/-- The block refuses nothing (R104). -/
inductive Refusal where
  /-- Raised by an arm of `exec` that has no meaning yet: none has been left so. Safe. -/
  | notModelled (mnemonic : String)
deriving DecidableEq, Repr

/-- The state of the model. Every field but `pending` and `draws` is a port of R17 or the result word of R41; no rule
reads a port's value after the evaluation that produced it (R13 (c)). -/
structure State where
  /-- The host's operation words not yet evaluated, the next one first (R15, R123). -/
  pending : List OpWord
  /-- Port `enc_speed`. -/
  encSpeed : BitVec 64
  /-- Port `enc_code`. -/
  encCode : BitVec 16
  /-- Port `dec_code`. -/
  decCode : BitVec 16
  /-- Port `dec_speed`. -/
  decSpeed : BitVec 64
  /-- Port `lg_x`. -/
  lgX : BitVec 64
  /-- Port `lg_y`, two's complement. -/
  lgY : BitVec 12
  /-- Port `sc_value`. -/
  scValue : BitVec 64
  /-- Port `sc_exp`, two's complement. -/
  scExp : BitVec 4
  /-- Port `sc_y`. -/
  scY : BitVec 64
  /-- The result word `Y` of the last evaluation (R41, R42). -/
  y : BitVec 64
  /-- The MODEL's own: the index of the next evaluation's draw (R9; assumption 4). -/
  draws : Nat
deriving DecidableEq, Repr

/-- The block before its first evaluation (R116): nothing pending, every input port zero (assumption 3), and every
output port the function of its input ports (R20): `ENC(+0.0) = 0`, `DEC(0) = +0.0`, `SCALE(+0.0, 0) = +0.0`, and for
`lg_x = +0.0`, which is outside ILOG2's domain, the draw of R84, which is draw 0. `y` is zero before any result
(assumption 3). -/
def State.reset : State where
  pending := []
  encSpeed := 0
  encCode := 0
  decCode := 0
  decSpeed := 0
  lgX := 0
  lgY := Config.any12 0
  scValue := 0
  scExp := 0
  scY := 0
  y := 0
  draws := 1

end Sys2Proof.Machine
end

