-- ==== Sys2Proof/Machine/Ops.lean ====
section
/-! DEFINITION. The shared operations: exact powers of two, the one rounding rule (R49), the high clamp (R48), the exact
base-2 logarithm (R80), exact scaling (R87); and the operations on State through which every evaluation puts operands
and results on ports. All arithmetic is on exact rationals (R8, R52). -/

namespace Sys2Proof.Machine

/-- `2^k` for an integer `k`, negative allowed (R8). -/
def pow2 : Int → Rat
  | .ofNat n => ((2 ^ n : Nat) : Rat)
  | .negSucc n => mkRat 1 (2 ^ (n + 1))

/-- Round half away from zero (R49). -/
def rhaz (x : Rat) : Int :=
  if 0 ≤ x then (x + 1 / 2).floor else -(-x + 1 / 2).floor

/-- `min(speed, 255)` (R48). -/
def clampHigh (speed : Rat) : Rat :=
  if speed ≤ Config.speedMax then speed else Config.speedMax

/-- ILOG2 on reals (R80): for `x > 0` the integer `n` with `2^n ≤ x < 2^(n+1)`, found by comparing `x` with the one
candidate power of two that the sizes of its numerator and denominator leave; no logarithm is computed (R81). For
`x ≤ 0` the rule defines nothing: no port result is made from such a value (R84, `ilog2Port`). -/
def ilog2Real (x : Rat) : Int :=
  let k : Int := (Nat.log2 x.num.natAbs : Int) - (Nat.log2 x.den : Int)
  if pow2 k ≤ x then k else k - 1

/-- SCALE on reals (R87): `value * 2^exp` for `exp ≥ 0`, `value / 2^|exp|` for `exp < 0`, exact. -/
def scaleReal (value : Rat) (exp : Int) : Rat :=
  if 0 ≤ exp then value * pow2 exp else value / pow2 (-exp)

namespace State

/-- The host's next operation word and the state with it taken (R15, R123: the host keeps the list). -/
def fetch (s : State) : Option (OpWord × State) :=
  match s.pending with
  | [] => none
  | w :: rest => some (w, { s with pending := rest })

/-- The host presents one more operation word, to be evaluated next. -/
def present (w : OpWord) (s : State) : State := { s with pending := w :: s.pending }

/-- ENC's ports during one evaluation (R17, R18). -/
def driveEnc (speed : Real64) (code : Code16) (s : State) : State :=
  { s with encSpeed := speed, encCode := code }

/-- DEC's ports during one evaluation (R17, R18). -/
def driveDec (code : Code16) (speed : Real64) (s : State) : State :=
  { s with decCode := code, decSpeed := speed }

/-- The ports of the stand-alone ILOG2 during one evaluation (R17, R18). -/
def driveIlog2 (x : Real64) (y : BitVec 12) (s : State) : State :=
  { s with lgX := x, lgY := y }

/-- The ports of the stand-alone SCALE during one evaluation (R17, R18). -/
def driveScale (value : Real64) (exp : BitVec 4) (y : Real64) (s : State) : State :=
  { s with scValue := value, scExp := exp, scY := y }

/-- The evaluation ends: its result word `Y` is written (R41, R42), and the next evaluation gets a fresh draw (R9). -/
def answer (y : BitVec 64) (s : State) : State :=
  { s with y := y, draws := s.draws + 1 }

end State

end Sys2Proof.Machine
end

