-- ==== Sys2Proof/Syntax.lean ====
section
/-! DEFINITION. The operations of the block (R2, R42; R125: there is no fifth), and their written form (R45). -/

namespace Sys2Proof

/-- One evaluation, as its unit's operands (R41 allows this in place of the operation word). Ignored fields of the
word (R43) are no operands and are not kept. -/
inductive Instr where
  /-- ENC (R59): `enc_speed`. -/
  | enc (speed : Real64)
  /-- DEC (R71): `dec_code`. -/
  | dec (code : Code16)
  /-- ILOG2 (R80): `lg_x`. -/
  | ilog2 (x : Real64)
  /-- SCALE (R87): `sc_value` and the two's-complement `sc_exp`. -/
  | scale (value : Real64) (exp : BitVec 4)
deriving DecidableEq, Repr

/-- A `<real>` of the written syntax (R45). -/
inductive RealOperand where
  /-- A decimal numeral, as the rational it denotes. -/
  | numeral (r : Rat)
  /-- A 16-digit hexadecimal binary64 pattern. -/
  | pattern (b : Real64)
  /-- `+inf` -/
  | posInf
  /-- `-inf` -/
  | negInf
  /-- `nan` -/
  | nan
deriving DecidableEq, Repr

/-- One written operation, without the expected result after `->`, which is not part of it (R45). A code is any
integer a software caller may pass (R37); SCALE's exponent is a signed integer. -/
inductive Written where
  | enc (speed : RealOperand)
  | dec (code : Int)
  | ilog2 (x : RealOperand)
  | scale (value : RealOperand) (exp : Int)
deriving DecidableEq, Repr

end Sys2Proof
end

