-- ==== Sys2Proof/Machine/Operands.lean ====
section
/-! DEFINITION. The operand and result forms: binary64 patterns (R38), two's-complement integers (R39), the fields of a
packed code (R31 to R33), and integers a software caller passes to DEC (R37). -/

namespace Sys2Proof.Machine

/-- What a binary64 pattern denotes (R38). -/
inductive PortReal where
  /-- A finite pattern, by the one real it denotes. -/
  | real (r : Rat)
  /-- An infinity, `-inf` when `neg`. -/
  | inf (neg : Bool)
  | nan
deriving DecidableEq, Repr

/-- `S = b[63]` (R38). -/
def signField (b : Real64) : Bool := b.getLsbD 63

/-- `E = b[62:52]` (R38). -/
def expField (b : Real64) : Nat := (b.extractLsb' 52 11).toNat

/-- `T = b[51:0]` (R38). -/
def fracField (b : Real64) : Nat := (b.extractLsb' 0 52).toNat

/-- The pattern `{S, E, T}` (R38). -/
def packReal (neg : Bool) (e t : Nat) : Real64 :=
  BitVec.ofBool neg ++ BitVec.ofNat 11 e ++ BitVec.ofNat 52 t

/-- `(-1)^S * r` (R38). -/
def withSign (neg : Bool) (r : Rat) : Rat := if neg then -r else r

/-- `val(b)` (R38); the zero row is the subnormal row with `T = 0`. -/
def val (b : Real64) : PortReal :=
  if expField b = 2047 then
    if fracField b = 0 then .inf (signField b) else .nan
  else if expField b = 0 then
    .real (withSign (signField b) ((fracField b : Rat) * pow2 (-1074)))
  else
    .real (withSign (signField b) (((2 ^ 52 + fracField b : Nat) : Rat) * pow2 ((expField b : Int) - 1075)))

/-- `|r|`. -/
def magnitude (r : Rat) : Rat := if r < 0 then -r else r

/-- `bits64(r)` (R38): the pattern of a representable real, `+0.0` for 0. For a real that binary64 cannot hold the rule
defines nothing, and what this gives then is no result of the block (`representable` tells the two apart). -/
def bits64 (r : Rat) : Real64 :=
  if r = 0 then 0
  else
    let a := magnitude r
    let n := ilog2Real a
    if n < -1022 then packReal (decide (r < 0)) 0 (a * pow2 1074).floor.toNat
    else packReal (decide (r < 0)) (n + 1023).toNat ((a * pow2 (52 - n)).floor.toNat - 2 ^ 52)

/-- `r` is exactly representable in binary64 (R92, R93): the pattern `bits64` gives denotes `r` itself. -/
def representable (r : Rat) : Bool := decide (val (bits64 r) = .real r)

/-- The integer on `sc_exp`, two's complement (R39). -/
def expOperand (k : BitVec 4) : Int := k.toInt

/-- `dec_code[9:0]`, the bits DEC interprets (R40, R72). -/
def codeOperand (v : Code16) : Code10 := v.extractLsb' 0 10

/-- `m = c & 0x7F` (R32). -/
def mantissaField (c : Nat) : Nat := c &&& Config.mantMask

/-- `e = (c >> 7) & 0x7` (R32). -/
def exponentField (c : Nat) : Nat := (c >>> Config.mantW) &&& Config.expMask

/-- `(exponent << 7) + mantissa`, an addition that carries (R33). -/
def assembleCode (exponent mantissa : Int) : Int := exponent * 2 ^ Config.mantW + mantissa

/-- An integer passed by a software caller, as the vector on `dec_code` (R37): two's complement, truncated. -/
def softwareCode (n : Int) : Code16 := BitVec.ofInt 16 n

/-- Whether a `<real>` of the written syntax denotes an operand (R45): a numeral must be exactly representable. -/
def realOperandOk : RealOperand → Bool
  | .numeral r => representable r
  | .pattern _ => true
  | .posInf => true
  | .negInf => true
  | .nan => true

/-- The pattern a `<real>` of the written syntax puts on its port (R45). The pattern of `nan` is the one the spec's
vectors write (95_test_vectors.md 2.2); every NaN pattern is treated alike. -/
def realOperand : RealOperand → Real64
  | .numeral r => bits64 r
  | .pattern b => b
  | .posInf => packReal false 2047 0
  | .negInf => packReal true 2047 0
  | .nan => packReal false 2047 (2 ^ 51)

end Sys2Proof.Machine
end

