-- ==== Sys2Proof/WellFormed.lean ====
section
/-! DEFINITION. The checks: on a written operation (R45), on the eighteen digits of a written operation word (R41), on
the spelling of ignored fields (R43), and on an operation. -/

namespace Sys2Proof

/-- A written operation denotes an evaluation (R45): its `<real>` is exactly representable, and SCALE's exponent fits
`sc_exp`, -8 to 7 (R39). Any integer may be passed to DEC (R37). -/
def Written.wellFormed : Written → Bool
  | .enc speed => Machine.realOperandOk speed
  | .dec _ => true
  | .ilog2 x => Machine.realOperandOk x
  | .scale value exp => Machine.realOperandOk value && decide (-8 ≤ exp) && decide (exp ≤ 7)

/-- A written operation word has 18 hexadecimal digits (R41). -/
def hasEighteenDigits (ds : List Digit) : Bool := ds.length == 18

/-- Its first digit is `UOP`, 0 to 3: "the two bits above bit 69 that the digit would hold are not part of the word and
are written 0" (R41). -/
def leadDigitInRange (ds : List Digit) : Bool := decide ((ds.headD 0).toNat ≤ 3)

/-- The canonical spelling writes every ignored field as zero (R43): `B` for ENC, DEC and ILOG2, `A[63:16]` for DEC.
DESIGN CHOICE (assumption 7): `A[15:10]` of a DEC word is part of the operand `dec_code` (R42's table) and free in the
canonical spelling, though it is without effect (R43) and 93_implementation_defined.md U6 lists it as ignored. -/
def canonicalWord (w : OpWord) : Bool :=
  let uop := w.extractLsb' 68 2
  (uop == 3#2 || w.extractLsb' 64 4 == 0#4) && (uop != 1#2 || w.extractLsb' 16 48 == 0#48)

/-- Every operation is well formed: its operands are whole port values, and no port value is illegal (R36, R43). -/
def Instr.wellFormed : Instr → Bool
  | .enc _ => true
  | .dec _ => true
  | .ilog2 _ => true
  | .scale _ _ => true

end Sys2Proof
end

