-- ==== Sys2Proof/Decode.lean ====
section
/-! DEFINITION. The operation word (R41 to R44): the opcode table, the decoder, the written form of eighteen digits, and
after them the encoder. -/

namespace Sys2Proof

/-- One row of the opcode map (R42): a word is the row's when `w &&& mask = pattern`. -/
structure OpcodeRow where
  mnemonic : String
  pattern : OpWord
  mask : OpWord
deriving DecidableEq, Repr

/-- The opcode map (R42), as `opcode_table.json` writes it. -/
def opcodeTable : List OpcodeRow :=
  [ ⟨"ENC", 0x000000000000000000#70, 0x300000000000000000#70⟩,
    ⟨"DEC", 0x100000000000000000#70, 0x300000000000000000#70⟩,
    ⟨"ILOG2", 0x200000000000000000#70, 0x300000000000000000#70⟩,
    ⟨"SCALE", 0x300000000000000000#70, 0x300000000000000000#70⟩ ]

/-- An operation's mnemonic (R2, R42). -/
def Instr.mnemonic : Instr → String
  | .enc _ => "ENC"
  | .dec _ => "DEC"
  | .ilog2 _ => "ILOG2"
  | .scale _ _ => "SCALE"

/-- `UOP = OPW[69:68]` (R41). -/
def uopField (w : OpWord) : BitVec 2 := w.extractLsb' 68 2

/-- `B = OPW[67:64]` (R41). -/
def bField (w : OpWord) : BitVec 4 := w.extractLsb' 64 4

/-- `A = OPW[63:0]` (R41). -/
def aField (w : OpWord) : BitVec 64 := w.extractLsb' 0 64

/-- The decoder (R42). Every word selects a unit: the map is complete, and there is no illegal word (R43). -/
def decodeWord (w : OpWord) : Instr :=
  if uopField w = 0 then .enc (aField w)
  else if uopField w = 1 then .dec ((aField w).extractLsb' 0 16)
  else if uopField w = 2 then .ilog2 (aField w)
  else .scale (aField w) (bField w)

/-- Why a list of digits is no written operation word. -/
inductive DecodeError where
  /-- It has not 18 digits (R41, R44). -/
  | notEighteenDigits
  /-- Its first digit is above 3, so that it sets bits that are not part of the word (R41). -/
  | leadDigitAboveThree
deriving DecidableEq, Repr

/-- What the decoder answers on a list of digits. -/
inductive Decoded where
  | ok (i : Instr)
  | rejected (e : DecodeError)
deriving DecidableEq, Repr

/-- The number a list of hexadecimal digits writes, the most significant digit first (R41). -/
def natOfDigits (ds : List Digit) : Nat := ds.foldl (fun n d => 16 * n + d.toNat) 0

/-- The last `n` hexadecimal digits of a number, the most significant first (R41). -/
def digitsOfNat : Nat → Nat → List Digit
  | 0, _ => []
  | n + 1, v => BitVec.ofNat 4 (v / 16 ^ n) :: digitsOfNat n v

/-- The decoder on the written form (R41): total on any list of digits, rejecting by name. -/
def decodeDigits (ds : List Digit) : Decoded :=
  if hasEighteenDigits ds then
    if leadDigitInRange ds then .ok (decodeWord (BitVec.ofNat 70 (natOfDigits ds)))
    else .rejected .leadDigitAboveThree
  else .rejected .notEighteenDigits

/-- The number that the opcode table's bits `nbits`, `w` give a word; every bit above `nbits` is 0. -/
def tableBits (nbits w : Nat) : Nat := w % 2 ^ nbits

/-- The operation word of those bits. -/
def tableWord (nbits w : Nat) : OpWord := BitVec.ofNat 70 (tableBits nbits w)

/-- What the decoder reads from an operation word given as the opcode table numbers its bits. The 70 bits are written in
18 digits, 72 bits; a longer row is no operation word (R44). -/
def decodeTableWord (nbits w : Nat) : Option Instr :=
  if nbits ≤ 72 then
    match decodeDigits (digitsOfNat 18 (tableBits nbits w)) with
    | .ok i => some i
    | .rejected _ => none
  else none

/-- The operation word `{UOP, B, A}` (R41). -/
def packWord (uop : BitVec 2) (b : BitVec 4) (a : BitVec 64) : OpWord := uop ++ b ++ a

/-- The encoder: the canonical word of an operation, ignored fields zero (R42, R43). DESIGN CHOICE (assumption 7): all
sixteen bits of DEC's `dec_code` are written, bits 15:10 too. -/
def encodeWord : Instr → OpWord
  | .enc speed => packWord 0 0 speed
  | .dec code => packWord 1 0 (code.setWidth 64)
  | .ilog2 x => packWord 2 0 x
  | .scale value exp => packWord 3 exp value

/-- The written form of a word: 18 hexadecimal digits, the most significant first (R41). -/
def writeWord (w : OpWord) : List Digit := digitsOfNat 18 w.toNat

/-- The written form of an operation. -/
def encodeDigits (i : Instr) : List Digit := writeWord (encodeWord i)

end Sys2Proof
end

