-- ==== Sys2Proof/Machine/Dec.lean ====
section
/-! DEFINITION. DEC, the decoder (R71 to R79). -/

namespace Sys2Proof.Machine

/-- DEC on an integer code (R71). -/
def decReal (code : Nat) : Rat :=
  if code = 0 then 0
  else
    let mantissa := mantissaField code
    let exponent := exponentField code
    if exponent = 0 then scaleReal (mantissa : Rat) Config.linExp
    else scaleReal ((mantissa : Rat) + Config.window) ((exponent : Int) - Config.expBias)

/-- `DEC_port` (R78). -/
def decPort (v : Code16) : Real64 := bits64 (decReal (codeOperand v).toNat)

/-- DEC (R71): `Y = dec_speed` (R42). -/
def execDec (code : Code16) (s : State) : Host.Outcome State Fault Refusal :=
  let speed := decPort code
  .next ((s.driveDec code speed).answer speed)

end Sys2Proof.Machine
end

