-- ==== Sys2Proof/Machine/Enc.lean ====
section
/-! DEFINITION. ENC, the encoder (R59 to R70). -/

namespace Sys2Proof.Machine

/-- ENC's exponent branch, steps 3 to 6 (R62 to R66), for a speed above 2. -/
def encExponentBranch (speed : Rat) : Int :=
  let clamped := clampHigh speed
  let exponent := ilog2Real clamped
  let mantissa := rhaz (scaleReal clamped (Config.expBias - exponent) - Config.window)
  assembleCode exponent mantissa

/-- ENC on reals (R59), its guards in the source's order (R107). -/
def encReal (speed : Rat) : Int :=
  if speed ≤ Config.speedMin then 0
  else if speed ≤ Config.linMax then rhaz (speed * Config.linScale)
  else encExponentBranch speed

/-- `ENC_port` (R69); `draw` is the `any_10` of this evaluation. -/
def encPort (b : Real64) (draw : BitVec 10) : Code16 :=
  match val b with
  | .nan => (0#6) ++ draw
  | .inf true => 0
  | .inf false => BitVec.ofNat 16 Config.codeMax
  | .real speed => BitVec.ofInt 16 (encReal speed)

/-- ENC (R59): `Y = zext_64(enc_code)` (R42). -/
def execEnc (speed : Real64) (s : State) : Host.Outcome State Fault Refusal :=
  let code := encPort speed (Config.any10 s.draws)
  .next ((s.driveEnc speed code).answer (code.setWidth 64))

end Sys2Proof.Machine
end

