-- ==== Sys2Proof/Machine/Flags.lean ====
section
/-! DEFINITION. The block has no flag, condition code, status or control register of any kind (R16), raises and records
no floating-point exception and has no rounding mode (R58): no operation computes a flag, and clamping leaves no trace but
the result (R105). This file therefore defines nothing. -/
end

