-- ==== Sys2Proof/Machine/Ilog2.lean ====
section
/-! DEFINITION. ILOG2, the integer base-2 logarithm (R80 to R86). -/

namespace Sys2Proof.Machine

/-- `ILOG2_port` (R86); `draw` is the `any_12` of this evaluation (R84). -/
def ilog2Port (b : Real64) (draw : BitVec 12) : BitVec 12 :=
  match val b with
  | .real x => if 0 < x then BitVec.ofInt 12 (ilog2Real x) else draw
  | .inf _ => draw
  | .nan => draw

/-- ILOG2 (R80): `Y = sext_64(lg_y)` (R42). -/
def execIlog2 (x : Real64) (s : State) : Host.Outcome State Fault Refusal :=
  let lg := ilog2Port x (Config.any12 s.draws)
  .next ((s.driveIlog2 x lg).answer (lg.signExtend 64))

end Sys2Proof.Machine
end

