-- ==== Sys2Proof/Machine/Scale.lean ====
section
/-! DEFINITION. SCALE, the power-of-two scaler (R87 to R93). -/

namespace Sys2Proof.Machine

/-- `SCALE_port` (R93); `draw` is the `any_64` of this evaluation (R92). The sign of a non-zero product is the
operand's, since `2^k` is positive. -/
def scalePort (b : Real64) (k : Int) (draw : BitVec 64) : Real64 :=
  match val b with
  | .real v =>
    if v = 0 then b
    else if representable (scaleReal v k) then bits64 (scaleReal v k)
    else draw
  | .inf _ => draw
  | .nan => draw

/-- SCALE (R87): `Y = sc_y` (R42). -/
def execScale (value : Real64) (exp : BitVec 4) (s : State) : Host.Outcome State Fault Refusal :=
  let r := scalePort value (expOperand exp) (Config.any64 s.draws)
  .next ((s.driveScale value exp r).answer r)

end Sys2Proof.Machine
end

