-- ==== Sys2Proof/Machine/Dispatch.lean ====
section
/-! DEFINITION. One arm for each operation of the opcode map (R42). -/

namespace Sys2Proof.Machine

def exec (i : Instr) (s : State) : Host.Outcome State Fault Refusal :=
  match i with
  | .enc speed => Sys2Proof.Machine.execEnc speed s
  | .dec code => Sys2Proof.Machine.execDec code s
  | .ilog2 x => Sys2Proof.Machine.execIlog2 x s
  | .scale value exp => Sys2Proof.Machine.execScale value exp s

end Sys2Proof.Machine
end

