-- ==== Sys2Proof/Machine/Step.lean ====
section
/-! DEFINITION. One step: the host's next operation is evaluated (R120, R123). -/

namespace Sys2Proof.Machine

/-- One evaluation, an atomic step from operands to a result (R25, R120). Where the host presents nothing, nothing is
evaluated and the state stays (assumption 2). -/
def step (s : State) : Host.Outcome State Fault Refusal :=
  match s.fetch with
  | none => .next s
  | some (w, rest) => exec (decodeWord w) rest

/-- The word of `nbits`, `w` presented by the host, so that the next step evaluates it (assumption 2). -/
def State.withFetchWord (s : State) (nbits w : Nat) : State :=
  s.present (tableWord nbits w)

end Sys2Proof.Machine
end

