-- ==== Sys2Proof/Machine/Assemble.lean ====
section
/-! DEFINITION. From the written syntax (R45) to the operation it denotes. -/

namespace Sys2Proof.Machine

/-- The operation a well-formed written operation denotes (R45, with R37 for DEC's integer and R39 for SCALE's
exponent); none for an ill-formed one. -/
def assemble (p : Written) : Option Instr :=
  if p.wellFormed then
    some (match p with
      | .enc speed => .enc (realOperand speed)
      | .dec code => .dec (softwareCode code)
      | .ilog2 x => .ilog2 (realOperand x)
      | .scale value exp => .scale (realOperand value) (BitVec.ofInt 4 exp))
  else none

end Sys2Proof.Machine
end

