-- ==== Sys2Proof/Machine/Text.lean ====
section
/-! DEFINITION. One line of the written syntax (R45), read from its characters:
`MNEMONIC operand[, operand] -> result ; comment`. The expected result and the comment are not part of the operation. -/

namespace Sys2Proof.Machine

/-- The value of a digit, decimal or hexadecimal. -/
def digitValue (c : Char) : Option Nat :=
  if '0' ≤ c ∧ c ≤ '9' then some (c.toNat - '0'.toNat)
  else if 'a' ≤ c ∧ c ≤ 'f' then some (c.toNat - 'a'.toNat + 10)
  else if 'A' ≤ c ∧ c ≤ 'F' then some (c.toNat - 'A'.toNat + 10)
  else none

/-- The number a list of digits writes after those that wrote `acc`; none where one is no digit of the base. -/
def readDigitsFrom (base acc : Nat) : List Char → Option Nat
  | [] => some acc
  | c :: cs =>
    match digitValue c with
    | some d => if d < base then readDigitsFrom base (base * acc + d) cs else none
    | none => none

/-- The number a list of one digit or more writes. -/
def readDigits (base : Nat) (cs : List Char) : Option Nat :=
  if cs = [] then none else readDigitsFrom base 0 cs

/-- An unsigned decimal numeral, with or without a fraction. -/
def readUnsigned (cs : List Char) : Option Rat :=
  let whole := cs.takeWhile (· ≠ '.')
  match cs.drop whole.length with
  | [] => (readDigits 10 whole).map fun n => (n : Rat)
  | _ :: frac =>
    match readDigits 10 whole, readDigits 10 frac with
    | some n, some f => some ((n : Rat) + (f : Rat) / ((10 ^ frac.length : Nat) : Rat))
    | _, _ => none

/-- `<real>` (R45). DESIGN CHOICE (assumption 11): a zero written with a minus sign is the pattern `-0.0`, and a numeral
takes no leading plus sign, which `+inf` alone has. -/
def readReal (cs : List Char) : Option RealOperand :=
  if cs = ['+', 'i', 'n', 'f'] then some .posInf
  else if cs = ['-', 'i', 'n', 'f'] then some .negInf
  else if cs = ['n', 'a', 'n'] then some .nan
  else match cs with
    | '0' :: 'x' :: hex =>
      if hex.length = 16 then (readDigits 16 hex).map fun n => .pattern (BitVec.ofNat 64 n) else none
    | '-' :: rest => (readUnsigned rest).map fun r => if r = 0 then .pattern (packReal true 0 0) else .numeral (-r)
    | _ => (readUnsigned cs).map fun r => .numeral r

/-- `<integer>`, a signed decimal integer (R45); the sign is `-`, `+` or absent. -/
def readInteger (cs : List Char) : Option Int :=
  match cs with
  | '-' :: rest => (readDigits 10 rest).map fun n => -(n : Int)
  | '+' :: rest => (readDigits 10 rest).map fun n => (n : Int)
  | _ => (readDigits 10 cs).map fun n => (n : Int)

/-- `<code>`, a decimal or hexadecimal integer (R45, R37). A negative code is an integer of a
software caller (R37). DESIGN CHOICE (assumption 11): a decimal code may have a plus sign, a hexadecimal one no sign. -/
def readCode (cs : List Char) : Option Int :=
  match cs with
  | '0' :: 'x' :: hex => (readDigits 16 hex).map fun n => (n : Int)
  | _ => readInteger cs

/-- The line up to its expected result. -/
def beforeArrow : List Char → List Char
  | [] => []
  | '-' :: '>' :: _ => []
  | c :: cs => c :: beforeArrow cs

/-- The words of a line, `acc` being the letters of the word begun; a comma is a word of its own. -/
def lineWords (acc : List Char) : List Char → List (List Char)
  | [] => if acc = [] then [] else [acc]
  | c :: cs =>
    if c = ' ' ∨ c = '\t' then if acc = [] then lineWords [] cs else acc :: lineWords [] cs
    else if c = ',' then if acc = [] then [','] :: lineWords [] cs else acc :: [','] :: lineWords [] cs
    else lineWords (acc ++ [c]) cs

/-- The written operation of a line (R45); none where the line is not one. -/
def readLine (line : List Char) : Option Written :=
  match lineWords [] (beforeArrow (line.takeWhile (· ≠ ';'))) with
  | [['E', 'N', 'C'], x] => (readReal x).map .enc
  | [['D', 'E', 'C'], c] => (readCode c).map .dec
  | [['I', 'L', 'O', 'G', '2'], x] => (readReal x).map .ilog2
  | [['S', 'C', 'A', 'L', 'E'], v, [','], k] =>
    match readReal v, readInteger k with
    | some v, some k => some (.scale v k)
    | _, _ => none
  | _ => none

/-- The operation a line denotes. -/
def assembleLine (line : List Char) : Option Instr := (readLine line).bind assemble

end Sys2Proof.Machine
end

