-- ==== Sys2Proof/Safety.lean ====
section
/-! DEFINITION. What claims about runs are stated in. -/

namespace Sys2Proof.Machine

/-- A step goes on: it is neither a fault nor a refusal (R104). -/
def StepCompletes (s : State) : Prop := ∃ t, step s = .next t

/-- Every output port carries what the rules give for the values on its unit's input ports (R18, R20): the value of
`ENC_port`, `DEC_port`, `ILOG2_port` and `SCALE_port`, under some draw where the result is one (R9). -/
structure State.PortsFollowInputs (s : State) : Prop where
  enc : ∃ draw, s.encCode = encPort s.encSpeed draw
  dec : s.decSpeed = decPort s.decCode
  ilog2 : ∃ draw, s.lgY = ilog2Port s.lgX draw
  scale : ∃ draw, s.scY = scalePort s.scValue (expOperand s.scExp) draw

/-- The result word is one unit's output port, extended as R42 says. -/
def State.ResultIsAnOutput (s : State) : Prop :=
  s.y = s.encCode.setWidth 64 ∨ s.y = s.decSpeed ∨ s.y = s.lgY.signExtend 64 ∨ s.y = s.scY

/-- `stepSize(speed)` (R102): the step of the bucket whose covered range contains the speed (R35). -/
def stepSize (speed : Rat) : Rat :=
  if speed < 4 then 1 / 64
  else if speed < 8 then 1 / 32
  else if speed < 16 then 1 / 16
  else if speed < 32 then 1 / 8
  else if speed < 64 then 1 / 4
  else if speed < 128 then 1 / 2
  else 1

end Sys2Proof.Machine

namespace Sys2Proof

open Machine

/-- The operations whose result is a function of the operands alone, no draw (R13 (b), R120): ENC on no NaN; DEC always;
ILOG2 on a positive real; SCALE on a zero, or on a real whose product binary64 holds exactly. -/
def Instr.Determined : Instr → Prop
  | .enc speed => val speed ≠ .nan
  | .dec _ => True
  | .ilog2 x => ∃ r, val x = .real r ∧ 0 < r
  | .scale value exp =>
    ∃ r, val value = .real r ∧ (r = 0 ∨ representable (scaleReal r (expOperand exp)) = true)

/-- `b` is a pattern that a `<real>` of the written syntax writes (R45, R38): one that denotes the numeral, `+0.0` for 0;
the pattern written out; the infinity; a NaN. -/
def RealOperand.Denotes : RealOperand → Real64 → Prop
  | .numeral r, b => val b = .real r ∧ (r = 0 → b = 0)
  | .pattern c, b => b = c
  | .posInf, b => val b = .inf false
  | .negInf, b => val b = .inf true
  | .nan, b => val b = .nan

end Sys2Proof
end

