-- ==== Sys2Proof/Certificates/Slice0/Obligations.lean ====
section
/-! DEFINITION. The statements for the provers. Each says what the block or the model does; none is proved here. -/

open Sys2Proof Sys2Proof.Machine

-- ## The operation word

/-- Decode and encode agree through the written form of eighteen digits (R41 to R43; the word is the spec's decision
D10). -/
def Obligations.EncodeThenDecodeGivesTheOperation : Prop :=
  ∀ i : Instr, i.wellFormed = true → decodeDigits (encodeDigits i) = .ok i

/-- The other direction (R43): the encoder writes a word again exactly when its ignored fields are zero. That `A[15:10]`
of a DEC word is none of them is THE MODEL'S CHOICE (assumption 7). -/
def Obligations.CanonicalWordsAreTheEncodersWords : Prop :=
  ∀ w : OpWord, encodeWord (decodeWord w) = w ↔ canonicalWord w = true

/-- The map is complete and unambiguous (R42): every word matches exactly one row of the table, and it is the row of
the operation the decoder reads. -/
def Obligations.EveryWordMatchesExactlyOneRow : Prop :=
  ∀ w : OpWord, ∃ row, row ∈ opcodeTable ∧ w &&& row.mask = row.pattern ∧ row.mnemonic = (decodeWord w).mnemonic ∧
    ∀ other ∈ opcodeTable, w &&& other.mask = other.pattern → other = row

/-- R42: what each unit select presents on the unit's ports and returns as `Y`. -/
def Obligations.UnitSelectDrivesItsPorts : Prop :=
  ∀ (w : OpWord) (s : State), ∃ t, exec (decodeWord w) s = .next t ∧
    (uopField w = 0 → t.encSpeed = aField w ∧ t.y = t.encCode.setWidth 64) ∧
    (uopField w = 1 → t.decCode = (aField w).extractLsb' 0 16 ∧ t.y = t.decSpeed) ∧
    (uopField w = 2 → t.lgX = aField w ∧ t.y = t.lgY.signExtend 64) ∧
    (uopField w = 3 → t.scValue = aField w ∧ t.scExp = bField w ∧ t.y = t.scY)

/-- R43: an ignored field does not affect `Y`: `B` outside SCALE, and `A[63:10]` for DEC. -/
def Obligations.IgnoredFieldsDoNotAffectTheResult : Prop :=
  ∀ (w w' : OpWord) (s : State), uopField w = uopField w' →
    (uopField w = 0 ∨ uopField w = 2 → aField w = aField w') →
    (uopField w = 1 → (aField w).extractLsb' 0 10 = (aField w').extractLsb' 0 10) →
    (uopField w = 3 → w = w') →
    ∃ t t', exec (decodeWord w) s = .next t ∧ exec (decodeWord w') s = .next t' ∧ t.y = t'.y

/-- Words of the spec's programs P1 to P4 decode to the operations they are written beside. -/
def Obligations.ProgramWordsDecodeAsWritten : Prop :=
  decodeWord 0x00400DB00000000000#70 = .enc 0x400DB00000000000#64 ∧
  decodeWord 0x10000000000000FFFF#70 = .dec 0xFFFF#16 ∧
  decodeWord 0x20400FF00000000000#70 = .ilog2 0x400FF00000000000#64 ∧
  decodeWord 0x3F4069000000000000#70 = .scale 0x4069000000000000#64 0xF#4

/-- R41: eighteen digits of which the first is 0 to 3 are a written word, `UOP`, `B` and `A` its first digit, its
second and its last sixteen, and the decoder reads that word. THE MODEL'S CHOICE (assumption 7): every other list of
digits is rejected by name. -/
def Obligations.OnlyWrittenWordsDecode : Prop :=
  ∀ ds : List Digit,
    (ds.length ≠ 18 → decodeDigits ds = .rejected .notEighteenDigits) ∧
    (ds.length = 18 → ∀ d b rest, ds = d :: b :: rest →
      (3 < d.toNat → decodeDigits ds = .rejected .leadDigitAboveThree) ∧
      (d.toNat ≤ 3 → ∃ w : OpWord, w = BitVec.ofNat 70 (natOfDigits ds) ∧ decodeDigits ds = .ok (decodeWord w) ∧
        writeWord w = ds ∧ (uopField w).toNat = d.toNat ∧ bField w = b ∧ (aField w).toNat = natOfDigits rest))

/-- R45: lines of the spec's programs P1 to P4 assemble to the words written beside them; a line that is none does
not. -/
def Obligations.ProgramLinesAssembleToTheirWords : Prop :=
  (assembleLine "ENC 3.7109375 -> 238".toList).map encodeWord = some 0x00400DB00000000000#70 ∧
  (assembleLine "DEC 0xFFFF -> 255.0 ; bits 15:10 ignored".toList).map encodeWord = some 0x10000000000000FFFF#70 ∧
  (assembleLine "ILOG2 0x400FF00000000000 -> 1".toList).map encodeWord = some 0x20400FF00000000000#70 ∧
  (assembleLine "SCALE 200.0, -1 -> 100.0".toList).map encodeWord = some 0x3F4069000000000000#70 ∧
  assembleLine "SCALE 200.0".toList = none ∧ assembleLine "ENC 0.1".toList = none

/-- R31 to R33: the fields of an assembled code are what was assembled, and a mantissa of 128 carries. -/
def Obligations.AssembledFieldsReadBackWithCarry : Prop :=
  ∀ e m : Nat, e ≤ 7 →
    (m ≤ 127 → assembleCode e m = 128 * e + m ∧ exponentField (assembleCode e m).toNat = e ∧
      mantissaField (assembleCode e m).toNat = m) ∧
    (m = 128 → e ≤ 6 → exponentField (assembleCode e m).toNat = e + 1 ∧ mantissaField (assembleCode e m).toNat = 0)

/-- R45, R37, R39, R38, by the spec's decisions D11, D5 (negative integers of DEC) and D9 (assumption 8): a written
operation is assembled exactly when it is well formed, to an operation of the unit it names, with the operands it
writes. A `<real>` in each of its forms gives a pattern it denotes, SCALE's exponent is the integer, DEC reads the
integer's low ten bits; and a line assembles to an operation of the mnemonic that is its first word. -/
def Obligations.WrittenOperationsKeepTheirValues : Prop :=
  (∀ p : Written, (assemble p).isSome = p.wellFormed) ∧
  (∀ (x : RealOperand) (i : Instr), assemble (.enc x) = some i → ∃ b, i = .enc b ∧ x.Denotes b) ∧
  (∀ (x : RealOperand) (i : Instr), assemble (.ilog2 x) = some i → ∃ b, i = .ilog2 b ∧ x.Denotes b) ∧
  (∀ (x : RealOperand) (k : Int) (i : Instr), assemble (.scale x k) = some i →
    ∃ b e, i = .scale b e ∧ x.Denotes b ∧ expOperand e = k) ∧
  (∀ (n : Int) (i : Instr), assemble (.dec n) = some i → ∃ v, i = .dec v ∧ ((codeOperand v).toNat : Int) = n % 1024) ∧
  (∀ (line : List Char) (i : Instr), assembleLine line = some i →
    (lineWords [] (beforeArrow (line.takeWhile (· ≠ ';')))).head? = some i.mnemonic.toList)

-- ## The step

/-- A step with a word pending is the evaluation of the operation it decodes to, on the state with the word taken
(R120). That the host's words are a list in State, of which a step takes the first, is THE MODEL'S CHOICE (assumptions
1 and 2). -/
def Obligations.StepRunsTheDecodedWord : Prop :=
  ∀ (s : State) (w : OpWord) (rest : List OpWord), s.pending = w :: rest →
    step s = exec (decodeWord w) { s with pending := rest }

/-- THE MODEL'S CHOICE (assumption 2): where the host presents nothing, a step changes nothing. -/
def Obligations.StepWithNothingPendingChangesNothing : Prop :=
  ∀ s : State, s.pending = [] → step s = .next s

/-- THE MODEL'S CHOICE (assumptions 2 and 7): the word the host places, at the head of the list, is the one the next
step evaluates. -/
def Obligations.PlacedWordIsEvaluatedNext : Prop :=
  ∀ (s : State) (nbits w : Nat) (i : Instr), decodeTableWord nbits w = some i →
    step (s.withFetchWord nbits w) = exec i s

/-- R104: a step returns a result on every state; it is never a fault and never a refusal. -/
def Obligations.NoStepFaultsOrIsRefused : Prop :=
  ∀ s : State, StepCompletes s ∧ (∀ f, step s ≠ .fault f) ∧ (∀ r, step s ≠ .refused r)

/-- R123: every evaluation ends, so the host's `n` pending operations are all evaluated after `n` steps, each with a
draw index of its own. That the list and the index stand in State is THE MODEL'S CHOICE (assumptions 1 and 4). -/
def Obligations.PendingOperationsEndInAsManySteps : Prop :=
  ∀ s : State, ∃ t : State, Sys2Proof.core.run s.pending.length s = .next t ∧ t.pending = [] ∧
    t.draws = s.draws + s.pending.length

/-- R18, R20 (the spec's decisions D1, D12): every output port carries what its unit's rules give for its input ports,
and a step keeps that. -/
def Obligations.StepKeepsOutputsFollowingInputs : Prop :=
  ∀ s t : State, s.PortsFollowInputs → step s = .next t → t.PortsFollowInputs

/-- R42: the result word is an output port's value, extended, and a step keeps that. That the result word stays in
State after its evaluation, and over a step with nothing pending, is THE MODEL'S CHOICE (assumptions 1 and 2). -/
def Obligations.StepKeepsResultAnOutput : Prop :=
  ∀ s t : State, s.ResultIsAnOutput → step s = .next t → t.ResultIsAnOutput

/-- The two invariants hold of the state after reset. The zero on every input port and in `y`, and draw 0 on `lg_y`,
are THE MODEL'S CHOICE (assumption 3). -/
def Obligations.ResetMeetsTheInvariants : Prop :=
  State.reset.PortsFollowInputs ∧ State.reset.ResultIsAnOutput

/-- R13 (a), R120: the result of an operation depends on its operands and on nothing else, unless it is a draw. -/
def Obligations.ResultDependsOnOperandsOnly : Prop :=
  ∀ (i : Instr) (s s' : State), i.Determined →
    ∃ t t', exec i s = .next t ∧ exec i s' = .next t' ∧ t.y = t'.y

/-- R27 (a), (b): two evaluations on different units commute. Every port carries the same in either order, and each
gives the result word it gives alone. -/
def Obligations.EvaluationsOnDifferentUnitsCommute : Prop :=
  ∀ (i j : Instr) (s : State), i.Determined → j.Determined → i.mnemonic ≠ j.mnemonic →
    ∃ si sj sij sji, exec i s = .next si ∧ exec j s = .next sj ∧ exec j si = .next sij ∧ exec i sj = .next sji ∧
      sij.y = sj.y ∧ sji.y = si.y ∧ { sij with y := sji.y } = sji

/-- R25: evaluating an operation a second time leaves every port and the result as the first evaluation did. That the
draw index advances, as at every evaluation, is THE MODEL'S CHOICE (assumption 4). -/
def Obligations.SecondEvaluationChangesNothing : Prop :=
  ∀ (i : Instr) (s : State), i.Determined →
    ∃ t, exec i s = .next t ∧ exec i t = .next { t with draws := t.draws + 1 }

-- ## ENC

/-- R69, R42: ENC's evaluation and its frame. NaN and the infinities are the spec's decisions D6 and D7, the draw is
assumption 4. Only its ports, the result word and the draw index change (assumptions 1, 9). -/
def Obligations.EncEvaluatesItsPort : Prop :=
  ∀ (b : Real64) (s : State), ∃ code : Code16,
    exec (.enc b) s = .next
      { s with encSpeed := b, encCode := code, y := code.setWidth 64, draws := s.draws + 1 } ∧
    (val b = .nan → code = (0#6) ++ Config.any10 s.draws) ∧
    (val b = .inf true → code = 0) ∧
    (val b = .inf false → code = 1023) ∧
    (∀ speed, val b = .real speed → code = BitVec.ofInt 16 (encReal speed))

/-- R60: every speed at or below zero gives code 0, `-0.0` included. -/
def Obligations.EncLowClampGivesZero : Prop :=
  (∀ (b : Real64) (speed : ℚ) (s : State), val b = .real speed → speed ≤ 0 →
    ∃ t, exec (.enc b) s = .next t ∧ t.encCode = 0) ∧
  val 0x8000000000000000#64 = .real 0

/-- R61: on `(0, 2]` the result is `round(speed * 64)`, the integer `n` in 0 to 128 with `(2n - 1)/128 ≤ speed < (2n +
1)/128` (the interval is derived by the spec). -/
def Obligations.EncLinearBranchIsNearestSixtyFourth : Prop :=
  ∀ (b : Real64) (speed : ℚ) (s : State), val b = .real speed → 0 < speed → speed ≤ 2 →
    0 < speed * 64 ∧ speed * 64 ≤ 128 ∧
    ∃ (t : State) (n : Nat), exec (.enc b) s = .next t ∧ t.encCode = BitVec.ofNat 16 n ∧ t.y = BitVec.ofNat 64 n ∧
      (n : Int) = rhaz (speed * 64) ∧ n ≤ 128 ∧
      (2 * (n : ℚ) - 1) / 128 ≤ speed ∧ speed < (2 * (n : ℚ) + 1) / 128

/-- R62, R63: above 2 the clamped speed lies in `(2, 255]` and the exponent is its logarithm's floor, 1 to 7. -/
def Obligations.EncExponentIsOneToSeven : Prop :=
  ∀ speed : ℚ, 2 < speed → ∃ clamped : ℚ, clamped = min speed 255 ∧ clampHigh speed = clamped ∧
    2 < clamped ∧ clamped ≤ 255 ∧
    1 ≤ ilog2Real clamped ∧ ilog2Real clamped ≤ 7 ∧
    (2 : ℚ) ^ ilog2Real clamped ≤ clamped ∧ clamped < (2 : ℚ) ^ (ilog2Real clamped + 1) ∧
    encReal speed = encExponentBranch speed

/-- R64 to R66: the window, the intermediate mantissa 0 to 128 and when it is 128 (R65, derived by the spec), and the
packed fields with the carry into the exponent field; the carry does occur for each exponent 1 to 6. -/
def Obligations.EncWindowMantissaAndCarry : Prop :=
  (∀ (speed clamped : ℚ) (e : Int), 2 < speed → clamped = min speed 255 →
    (2 : ℚ) ^ e ≤ clamped → clamped < (2 : ℚ) ^ (e + 1) →
    ∃ m : Int, m = rhaz (scaleReal clamped (7 - e) - 128) ∧
      0 ≤ 7 - e ∧ 7 - e ≤ 6 ∧
      128 ≤ scaleReal clamped (7 - e) ∧ scaleReal clamped (7 - e) < 256 ∧
      0 ≤ m ∧ m ≤ 128 ∧
      (m = 128 ↔ (2 : ℚ) ^ (e + 1) - (2 : ℚ) ^ (e - 8) ≤ clamped) ∧ (m = 128 → e ≤ 6) ∧
      encReal speed = 128 * e + m ∧
      (m ≤ 127 → (exponentField (encReal speed).toNat : Int) = e ∧ (mantissaField (encReal speed).toNat : Int) = m) ∧
      (m = 128 → (exponentField (encReal speed).toNat : Int) = e + 1 ∧ mantissaField (encReal speed).toNat = 0)) ∧
  (∀ e : Nat, 1 ≤ e → e ≤ 6 →
    rhaz (scaleReal ((2 : ℚ) ^ (e + 1) - (2 : ℚ) ^ ((e : Int) - 8)) (7 - e) - 128) = 128 ∧
    encReal ((2 : ℚ) ^ (e + 1) - (2 : ℚ) ^ ((e : Int) - 8)) = 128 * (e + 1))

/-- R57, derived by the spec: a positive speed below 1/128, subnormal or not, is an ordinary speed of the linear
branch and gives code 0. -/
def Obligations.EncTinySpeedsGiveZero : Prop :=
  ∀ (b : Real64) (speed : ℚ) (s : State), val b = .real speed → 0 < speed → speed < 1 / 128 →
    encReal speed = rhaz (speed * 64) ∧ ∃ t, exec (.enc b) s = .next t ∧ t.encCode = 0

/-- R95: for every finite real the result is 0 to 1023, and for every input pattern `enc_code[15:10] = 0`. -/
def Obligations.EncResultAlwaysFitsTenBits : Prop :=
  (∀ speed : ℚ, 0 ≤ encReal speed ∧ encReal speed ≤ 1023) ∧
  (∀ (b : Real64) (s : State), ∃ t, exec (.enc b) s = .next t ∧ t.encCode.extractLsb' 10 6 = 0)

/-- R99, R70: 255, 300 and every speed from 255 on give the saturation code 1023, by the source; that every speed from
254.5 on does is derived by the spec. -/
def Obligations.EncSaturates : Prop :=
  encReal 255 = 1023 ∧ encReal 300 = 1023 ∧ ∀ speed : ℚ, 509 / 2 ≤ speed → encReal speed = 1023

/-- R51, its values derived by the spec: the ties are rounded away from zero. -/
def Obligations.EncTiesGoAwayFromZero : Prop :=
  encReal (1 / 128) = 1 ∧ encReal (5 / 128) = 3 ∧ encReal (2 + 1 / 128) = 129 ∧ encReal (257 / 2) = 897 ∧
  encReal (509 / 2) = 1023

/-- R68 (a), derived by the spec: the two branches are one expression with the bias moved, the linear branch its
instance at `e = 1`. -/
def Obligations.EncClosedForm : Prop :=
  ∀ (speed : ℚ) (e : Int),
    (0 < speed ∧ speed ≤ 2 ∧ e = 1 ∨
      2 < speed ∧ (2 : ℚ) ^ e ≤ min speed 255 ∧ min speed 255 < (2 : ℚ) ^ (e + 1)) →
    encReal speed = 128 * (e - 1) + rhaz (min speed 255 * (2 : ℚ) ^ (7 - e))

/-- R68 (b), (c), derived by the spec: on the bits. For a positive normal pattern above 2 and at most 255 the code is
the exponent field less 1023, the top seven fraction bits, and the eighth added; above 255 it is 1023. -/
def Obligations.EncIsABitLevelDatapath : Prop :=
  ∀ (b : Real64) (s : State), signField b = false →
    (1024 ≤ expField b → expField b ≤ 1030 → ¬ (expField b = 1024 ∧ fracField b = 0) →
      (expField b = 1030 → fracField b ≤ 0xFE00000000000) →
      (∃ speed, val b = .real speed ∧ 2 < speed ∧ speed ≤ 255) ∧
      ∃ t, exec (.enc b) s = .next t ∧
        t.encCode.toNat = (expField b - 1023) * 2 ^ 7 + fracField b / 2 ^ 45 + fracField b / 2 ^ 44 % 2) ∧
    (expField b ≠ 2047 → (1031 ≤ expField b ∨ expField b = 1030 ∧ 0xFE00000000000 < fracField b) →
      (∃ speed, val b = .real speed ∧ 255 < speed) ∧ ∃ t, exec (.enc b) s = .next t ∧ t.encCode = 1023)

-- ## DEC

/-- R78, R42: DEC's evaluation and its frame. Only its ports, the result word and the draw index change (assumptions
1, 4, 9). -/
def Obligations.DecEvaluatesItsPort : Prop :=
  ∀ (v : Code16) (s : State),
    exec (.dec v) s = .next
      { s with decCode := v, decSpeed := bits64 (decReal (v.extractLsb' 0 10).toNat),
               y := bits64 (decReal (v.extractLsb' 0 10).toNat), draws := s.draws + 1 }

/-- R72: only bits 9:0 of the operand matter, for a container of any width. -/
def Obligations.DecReadsOnlyTheLowTenBits : Prop :=
  (∀ code : Nat, decReal code = decReal (code % 1024)) ∧
  (∀ (v v' : Code16) (s : State), v.extractLsb' 0 10 = v'.extractLsb' 0 10 →
    ∃ t t', exec (.dec v) s = .next t ∧ exec (.dec v') s = .next t' ∧ t.decSpeed = t'.decSpeed)

/-- R73 to R75: the value of every code, by its fields. -/
def Obligations.DecValueByExponentField : Prop :=
  ∀ e m : Nat, e ≤ 7 → m ≤ 127 →
    decReal 0 = 0 ∧ bits64 (decReal 0) = 0x0000000000000000#64 ∧
    (e = 0 → decReal (128 * e + m) = (m : ℚ) / 64) ∧
    (1 ≤ e → decReal (128 * e + m) = ((m : ℚ) + 128) * (2 : ℚ) ^ ((e : Int) - 7))

/-- R76, derived by the spec: the pattern on `dec_speed`, field by field, and that it denotes DEC's value exactly. -/
def Obligations.DecPatternClosedForm : Prop :=
  ∀ (v : Code16) (s : State) (e m : Nat), e ≤ 7 → m ≤ 127 → (v.extractLsb' 0 10).toNat = 128 * e + m →
    ∃ (t : State) (n : Nat), exec (.dec v) s = .next t ∧ val t.decSpeed = .real (decReal (128 * e + m)) ∧
      decReal (128 * e + m) = (n : ℚ) / 64 ∧ n ≤ 64 * 255 ∧ signField t.decSpeed = false ∧
      (e = 0 → m = 0 → t.decSpeed = 0) ∧
      (1 ≤ e → t.decSpeed = packReal false (1023 + e) (m * 2 ^ 45)) ∧
      (∀ p : Nat, e = 0 → 2 ^ p ≤ m → m < 2 ^ (p + 1) →
        p ≤ 6 ∧ t.decSpeed = packReal false (1017 + p) ((m - 2 ^ p) * 2 ^ (52 - p)))

/-- R58, derived by the spec: every result of DEC is finite, `+0.0` or normal, and 0 or between 1/64 and 255: never
NaN, infinite, negative, `-0.0` or subnormal. -/
def Obligations.DecResultsAreOrdinary : Prop :=
  ∀ (v : Code16) (s : State), ∃ (t : State) (r : ℚ), exec (.dec v) s = .next t ∧
    val t.decSpeed = .real r ∧ 0 ≤ r ∧ r ≤ 255 ∧ (r = 0 ∨ 1 / 64 ≤ r) ∧ signField t.decSpeed = false ∧
    (t.decSpeed = 0 ∨ 1 ≤ expField t.decSpeed ∧ expField t.decSpeed ≤ 2046)

-- ## The pair

/-- R96: the round trip through the quantization grid is lossless, ENC is onto the codes and DEC one-to-one on them;
and with R69 and R78 the same through the ports of two evaluations. -/
def Obligations.GridRoundTripIsLossless : Prop :=
  (∀ c : Nat, c ≤ 1023 → encReal (decReal c) = c) ∧
  (∀ c : Nat, c ≤ 1023 → ∃ speed : ℚ, encReal speed = c) ∧
  (∀ c c' : Nat, c ≤ 1023 → c' ≤ 1023 → decReal c = decReal c' → c = c') ∧
  (∀ (v : Code16) (s : State), ∃ t u, exec (.dec v) s = .next t ∧ exec (.enc t.decSpeed) t = .next u ∧
    u.encCode = (v.extractLsb' 0 10).setWidth 16)

/-- R97: zero and negative speeds give code 0, and code 0 gives 0.0. -/
def Obligations.ZeroAndNegativeClamp : Prop :=
  (∀ speed : ℚ, speed ≤ 0 → encReal speed = 0) ∧ decReal 0 = 0

/-- R98, the strictness and the reals outside [0, 255] derived by the spec: DEC is strictly increasing on the codes,
ENC is monotone on all reals; wide codes are outside the property. -/
def Obligations.CodecIsMonotone : Prop :=
  (∀ a b : Nat, a < b → b ≤ 1023 → decReal a < decReal b) ∧
  (∀ a b : ℚ, a ≤ b → encReal a ≤ encReal b) ∧
  decReal 1024 = 0 ∧ decReal 1024 < decReal 1023

/-- R94: the composite is monotone, takes only grid values, stays within the bucket's step on `[0, 255]`, and is
constant outside; that it is 255 already from 254.5 on is derived by the spec (R70). -/
def Obligations.CompositeIsAMonotoneStepFunction : Prop :=
  (∀ a b : ℚ, a ≤ b → decReal (encReal a).toNat ≤ decReal (encReal b).toNat) ∧
  (∀ x : ℚ, ∃ c : Nat, c ≤ 1023 ∧ decReal (encReal x).toNat = decReal c) ∧
  (∀ x : ℚ, 0 ≤ x → x ≤ 255 → |decReal (encReal x).toNat - x| ≤ stepSize x) ∧
  (∀ x : ℚ, x ≤ 0 → decReal (encReal x).toNat = 0) ∧
  (∀ x : ℚ, 509 / 2 ≤ x → decReal (encReal x).toNat = 255)

/-- R102: the precision bound, and derived by the spec the tighter bound of half a step, and its equality at the ties,
the points halfway between two neighbouring grid values. -/
def Obligations.PrecisionIsHalfAStep : Prop :=
  (∀ x : ℚ, 0 < x → x ≤ 255 → |decReal (encReal x).toNat - x| ≤ stepSize x) ∧
  (∀ x : ℚ, 0 ≤ x → x ≤ 255 → |decReal (encReal x).toNat - x| ≤ stepSize x / 2) ∧
  (∀ (c : Nat) (x : ℚ), c ≤ 1022 → x = (decReal c + decReal (c + 1)) / 2 →
    |decReal (encReal x).toNat - x| = stepSize x / 2)

/-- R103, derived by the spec: after one pass through the grid further passes change nothing, and only grid values
pass unchanged. -/
def Obligations.PassesThroughTheGridAreProjections : Prop :=
  (∀ c : Nat, c ≤ 1023 → decReal (encReal (decReal c)).toNat = decReal c) ∧
  (∀ x : ℚ, encReal (decReal (encReal x).toNat) = encReal x) ∧
  (∀ x : ℚ, decReal (encReal x).toNat = x ↔ ∃ c : Nat, c ≤ 1023 ∧ x = decReal c)

/-- R100: exact at the exponent transitions; for the powers above 2, derived by the spec. -/
def Obligations.PowersOfTwoAreExact : Prop :=
  encReal 2 = 128 ∧ rhaz (2 * 64) = 128 ∧ ilog2Real 8 = 3 ∧
  ∀ n : Nat, 1 ≤ n → n ≤ 7 → encReal ((2 : ℚ) ^ n) = 128 * n ∧ decReal (128 * n) = (2 : ℚ) ^ n

/-- R101: the source's known values of ENC(0), ENC(1) and DEC(64), and the exponent 2 of ENC(4); that its mantissa is
0 and its value 256 is derived by the spec (95_test_vectors.md, S4). -/
def Obligations.KnownValues : Prop :=
  encReal 0 = 0 ∧ encReal 1 = 64 ∧ ilog2Real 4 = 2 ∧ rhaz (scaleReal 4 5 - 128) = 0 ∧ encReal 4 = 256 ∧ decReal 64 = 1

-- ## Rounding

/-- R49: `rhaz` gives the nearest integer, and of two equally near the one farther from zero. -/
def Obligations.RoundingIsHalfAwayFromZero : Prop :=
  (∀ x : ℚ, 0 ≤ x → rhaz x = ⌊x + 1 / 2⌋) ∧ (∀ x : ℚ, x < 0 → rhaz x = -⌊-x + 1 / 2⌋) ∧
  (∀ (x : ℚ) (n : Int), |(rhaz x : ℚ) - x| ≤ |(n : ℚ) - x| ∧
    (|(rhaz x : ℚ) - x| = |(n : ℚ) - x| → |(n : ℚ)| ≤ |(rhaz x : ℚ)|)) ∧
  rhaz (1 / 2) = 1 ∧ rhaz (3 / 2) = 2 ∧ rhaz (5 / 2) = 3 ∧ rhaz (-1 / 2) = -1 ∧ rhaz (-5 / 2) = -3 ∧
  rhaz (49 / 100) = 0 ∧ rhaz (255 / 2) = 128

-- ## ILOG2

/-- R86, R83, R42: ILOG2's evaluation and its frame: the logarithm, -1074 to 1023, on a positive real (derived by the
spec), a draw on everything else (the spec's decision D8; assumption 4). Only its ports, the result word and the draw
index change (assumptions 1, 9). -/
def Obligations.Ilog2EvaluatesItsPort : Prop :=
  ∀ (b : Real64) (s : State), ∃ lg : BitVec 12,
    exec (.ilog2 b) s = .next
      { s with lgX := b, lgY := lg, y := lg.signExtend 64, draws := s.draws + 1 } ∧
    (∀ x, val b = .real x → 0 < x →
      lg = BitVec.ofInt 12 (ilog2Real x) ∧ -1074 ≤ ilog2Real x ∧ ilog2Real x ≤ 1023) ∧
    ((¬ ∃ x, val b = .real x ∧ 0 < x) → lg = Config.any12 s.draws)

/-- R80: on a positive real, `lg_y` read as two's complement is the one integer `n` with `2^n ≤ x < 2^(n+1)`. -/
def Obligations.Ilog2IsTheFloorOfTheLogarithm : Prop :=
  ∀ (b : Real64) (x : ℚ) (s : State), val b = .real x → 0 < x →
    ∃ (t : State) (n : Int), exec (.ilog2 b) s = .next t ∧ t.lgY.toInt = n ∧
      (2 : ℚ) ^ n ≤ x ∧ x < (2 : ℚ) ^ (n + 1) ∧
      ∀ k : Int, (2 : ℚ) ^ k ≤ x → x < (2 : ℚ) ^ (k + 1) → k = n

/-- R81: exact at every power of two, and one less everywhere below it. -/
def Obligations.Ilog2IsExactAtPowersOfTwo : Prop :=
  ∀ n : Int, ilog2Real ((2 : ℚ) ^ n) = n ∧
    ∀ x : ℚ, (2 : ℚ) ^ (n - 1) ≤ x → x < (2 : ℚ) ^ n → ilog2Real x = n - 1

/-- R85, derived by the spec: the exponent-field computation agrees: `E - 1023` on a normal pattern, the position of
the highest set bit of `T` less 1074 on a subnormal one. -/
def Obligations.Ilog2IsTheExponentField : Prop :=
  ∀ (b : Real64) (s : State), signField b = false →
    (1 ≤ expField b → expField b ≤ 2046 →
      ∃ t, exec (.ilog2 b) s = .next t ∧ t.lgY.toInt = (expField b : Int) - 1023) ∧
    (expField b = 0 → fracField b ≠ 0 → ∀ p : Nat, 2 ^ p ≤ fracField b → fracField b < 2 ^ (p + 1) →
      ∃ t, exec (.ilog2 b) s = .next t ∧ t.lgY.toInt = (p : Int) - 1074)

-- ## SCALE

/-- R93, R42: SCALE's evaluation and its frame: a zero is kept, the one pattern of the product is given where there is
one, and everything else is a draw (the spec's decision D9; assumption 4). Only its ports, the result word and the
draw index change (assumptions 1, 9). -/
def Obligations.ScaleEvaluatesItsPort : Prop :=
  ∀ (b : Real64) (k : BitVec 4) (s : State), ∃ p : Real64,
    exec (.scale b k) s = .next
      { s with scValue := b, scExp := k, scY := p, y := p, draws := s.draws + 1 } ∧
    (val b = .real 0 → p = b) ∧
    (∀ v q, val b = .real v → v ≠ 0 → val q = .real (v * (2 : ℚ) ^ k.toInt) → p = q ∧ signField p = signField b) ∧
    (∀ v, val b = .real v → v ≠ 0 → (¬ ∃ q, val q = .real (v * (2 : ℚ) ^ k.toInt)) → p = Config.any64 s.draws) ∧
    ((¬ ∃ v, val b = .real v) → p = Config.any64 s.draws)

/-- R87: the two arms of SCALE are one multiplication by `2^exp`, for every integer. -/
def Obligations.ScaleIsMultiplicationByAPowerOfTwo : Prop :=
  ∀ (v : ℚ) (k : Int), scaleReal v k = v * (2 : ℚ) ^ k ∧
    (0 ≤ k → scaleReal v k = v * (2 : ℚ) ^ k.toNat) ∧ (k < 0 → scaleReal v k = v / (2 : ℚ) ^ (-k).toNat)

/-- R88, R91, derived by the spec: on a normal operand SCALE adds `exp` to the exponent field and leaves sign and
fraction unchanged, while the sum is a normal exponent. -/
def Obligations.ScaleAddsToTheExponentField : Prop :=
  ∀ (b : Real64) (k : BitVec 4) (s : State), 1 ≤ expField b → expField b ≤ 2046 →
    1 ≤ (expField b : Int) + k.toInt → (expField b : Int) + k.toInt ≤ 2046 →
    ∃ t, exec (.scale b k) s = .next t ∧ signField t.scY = signField b ∧ fracField t.scY = fracField b ∧
      (expField t.scY : Int) = (expField b : Int) + k.toInt

/-- R90: a zero operand gives a zero; that its sign is kept is the spec's decision D9. -/
def Obligations.ScaleKeepsTheSignOfZero : Prop :=
  (∀ k : Int, scaleReal 0 k = 0) ∧
  (∀ (b : Real64) (k : BitVec 4) (s : State), val b = .real 0 →
    ∃ t, exec (.scale b k) s = .next t ∧ val t.scY = .real 0 ∧ signField t.scY = signField b)

/-- R92, derived by the spec: with `exp` in -8 to 7 a finite operand's product can fail to be representable only at
magnitude `2^1017` or above, or below `2^-1014`. -/
def Obligations.ScaleDrawsOnlyAtExtremeMagnitudes : Prop :=
  ∀ (b : Real64) (k : BitVec 4) (v : ℚ) (s : State), val b = .real v →
    (2 : ℚ) ^ (-1014 : Int) ≤ |v| → |v| < (2 : ℚ) ^ (1017 : Int) →
    ∃ t, exec (.scale b k) s = .next t ∧ val t.scY = .real (v * (2 : ℚ) ^ k.toInt)

-- ## The units and their helpers

/-- R38: a non-zero real is denoted by one pattern at most, and zero by exactly two. -/
def Obligations.PatternsDenoteDistinctReals : Prop :=
  (∀ (b b' : Real64) (r : ℚ), r ≠ 0 → val b = .real r → val b' = .real r → b = b') ∧
  (∀ b : Real64, val b = .real 0 ↔ b = 0 ∨ b = 0x8000000000000000#64)

/-- R59, R82, R91: ENC's exponent branch taken apart. Above 2, ILOG2 on its own port, given the clamped speed, gives
the exponent and SCALE on its own ports the window; the subtraction, rounding and packing of them is ENC's code. -/
def Obligations.EncIsBuiltFromItsHelperUnits : Prop :=
  ∀ (b c : Real64) (speed : ℚ) (s : State), val b = .real speed → 2 < speed → val c = .real (min speed 255) →
    ∃ (l : State) (k : BitVec 4) (u : State) (window : ℚ) (t : State),
      exec (.ilog2 c) s = .next l ∧ k.toInt = 7 - l.lgY.toInt ∧
      exec (.scale c k) l = .next u ∧ val u.scY = .real window ∧
      exec (.enc b) u = .next t ∧ (t.encCode.toNat : Int) = assembleCode l.lgY.toInt (rhaz (window - 128))

/-- R71, R77, R91: DEC taken apart. SCALE on its own ports, given the mantissa (plus 128 unless the exponent field is
0) and the exponent of the bucket, gives DEC's pattern. -/
def Obligations.DecIsBuiltFromItsHelperUnit : Prop :=
  ∀ (v : Code16) (e m : Nat) (p : Real64) (k : BitVec 4) (s : State), e ≤ 7 → m ≤ 127 →
    (v.extractLsb' 0 10).toNat = 128 * e + m →
    (e = 0 → val p = .real (m : ℚ) ∧ signField p = false ∧ k.toInt = -6) →
    (1 ≤ e → val p = .real ((m : ℚ) + 128) ∧ k.toInt = (e : Int) - 7) →
    ∃ c t, exec (.scale p k) s = .next c ∧ exec (.dec v) c = .next t ∧ t.decSpeed = c.scY

/-- R37, the spec's decision D5 for negative integers: DEC of a software integer, negative or not, is DEC of its value
modulo 1024. -/
def Obligations.SoftwareIntegersAreReadModulo1024 : Prop :=
  (∀ (n : Int) (s : State), ∃ t, exec (.dec (softwareCode n)) s = .next t ∧
    t.decSpeed = bits64 (decReal (n % 1024).toNat)) ∧
  decPort (softwareCode (-1)) = decPort 0x3FF#16
end

