-- ==== Sys2Proof/Laws/Numerics.lean ====
section
/-! SUPPORT. One specification lemma for each shared numeric operation: `pow2`, `rhaz`, `clampHigh`, `scaleReal`,
`ilog2Real`. -/

namespace Sys2Proof.Machine

theorem pow2_eq_zpow (k : Int) : pow2 k = (2 : ℚ) ^ k := by
  cases k with
  | ofNat n => simp [pow2]
  | negSucc n => simp [pow2, zpow_negSucc, Rat.mkRat_eq_div]

theorem pow2_pos (k : Int) : 0 < pow2 k := by
  rw [pow2_eq_zpow]; positivity

theorem pow2_add (j k : Int) : pow2 (j + k) = pow2 j * pow2 k := by
  simp only [pow2_eq_zpow]; exact zpow_add₀ two_ne_zero j k

theorem pow2_lt_pow2 {j k : Int} : pow2 j < pow2 k ↔ j < k := by
  simp only [pow2_eq_zpow]; exact zpow_lt_zpow_iff_right₀ one_lt_two

theorem pow2_le_pow2 {j k : Int} : pow2 j ≤ pow2 k ↔ j ≤ k := by
  simp only [pow2_eq_zpow]; exact zpow_le_zpow_iff_right₀ one_lt_two

/-- R87: the two arms of SCALE are one multiplication. -/
theorem scaleReal_eq (v : ℚ) (k : Int) : scaleReal v k = v * (2 : ℚ) ^ k := by
  unfold scaleReal
  split <;> simp [pow2_eq_zpow, zpow_neg, div_eq_mul_inv]

theorem clampHigh_eq_min (x : ℚ) : clampHigh x = min x 255 := by
  unfold clampHigh; split
  · rw [min_eq_left ‹_›]
  · rw [min_eq_right (le_of_not_ge ‹_›)]

theorem rhaz_of_nonneg {x : ℚ} (h : 0 ≤ x) : rhaz x = ⌊x + 1 / 2⌋ := by
  simp [rhaz, h, Rat.floor_def, Int.floor, FloorRing.floor]

/-- On the non-negative reals, the only ones the block rounds (R50): `n` is the result exactly on `[n - 1/2, n + 1/2)`. -/
theorem rhaz_eq_iff {x : ℚ} (h : 0 ≤ x) (n : Int) :
    rhaz x = n ↔ (n : ℚ) - 1 / 2 ≤ x ∧ x < (n : ℚ) + 1 / 2 := by
  rw [rhaz_of_nonneg h, Int.floor_eq_iff]
  constructor <;> rintro ⟨h1, h2⟩ <;> constructor <;> linarith

theorem rhaz_bounds {x : ℚ} (h : 0 ≤ x) : (rhaz x : ℚ) - 1 / 2 ≤ x ∧ x < (rhaz x : ℚ) + 1 / 2 :=
  (rhaz_eq_iff h _).1 rfl

theorem rhaz_natCast (n : Nat) : rhaz (n : ℚ) = n :=
  (rhaz_eq_iff (by positivity) _).2 (by push_cast; constructor <;> linarith)

theorem rhaz_mono {x y : ℚ} (h : 0 ≤ x) (hxy : x ≤ y) : rhaz x ≤ rhaz y := by
  rw [rhaz_of_nonneg h, rhaz_of_nonneg (h.trans hxy)]
  exact Int.floor_mono (by linarith)

theorem rhaz_nonneg {x : ℚ} (h : 0 ≤ x) : 0 ≤ rhaz x := by
  rw [rhaz_of_nonneg h]; exact Int.floor_nonneg.2 (by linarith)

/-- The sizes of numerator and denominator leave two candidates for the logarithm of a ratio. -/
theorem ratio_bounds {n d : Nat} (hn : n ≠ 0) (hd : d ≠ 0) :
    (2 : ℚ) ^ ((n.log2 : Int) - (d.log2 : Int) - 1) ≤ (n : ℚ) / d ∧
      (n : ℚ) / d < (2 : ℚ) ^ ((n.log2 : Int) - (d.log2 : Int) + 1) := by
  have n1 : (2 : ℚ) ^ n.log2 ≤ n := by exact_mod_cast Nat.log2_self_le hn
  have n2 : (n : ℚ) < (2 : ℚ) ^ (n.log2 + 1) := by exact_mod_cast Nat.lt_log2_self
  have d1 : (2 : ℚ) ^ d.log2 ≤ d := by exact_mod_cast Nat.log2_self_le hd
  have d2 : (d : ℚ) < (2 : ℚ) ^ (d.log2 + 1) := by exact_mod_cast Nat.lt_log2_self
  have hdp : (0 : ℚ) < d := by exact_mod_cast Nat.pos_of_ne_zero hd
  constructor
  · rw [le_div_iff₀ hdp, show (n.log2 : Int) - (d.log2 : Int) - 1 = (n.log2 : Int) - ((d.log2 + 1 : Nat) : Int) by
      push_cast; ring, zpow_sub₀ two_ne_zero, zpow_natCast, zpow_natCast, div_mul_eq_mul_div,
      div_le_iff₀ (by positivity)]
    exact mul_le_mul n1 d2.le hdp.le (by positivity)
  · rw [div_lt_iff₀ hdp, show (n.log2 : Int) - (d.log2 : Int) + 1 = ((n.log2 + 1 : Nat) : Int) - (d.log2 : Int) by
      push_cast; ring, zpow_sub₀ two_ne_zero, zpow_natCast, zpow_natCast, div_mul_eq_mul_div,
      lt_div_iff₀ (by positivity)]
    exact mul_lt_mul n2 d1 (by positivity) (by positivity)

/-- The one candidate `ilog2Real` compares with is `floor(log2 x)` or one above it. -/
theorem candidate_bounds {x : ℚ} (hx : 0 < x) :
    (2 : ℚ) ^ ((Nat.log2 x.num.natAbs : Int) - (Nat.log2 x.den : Int) - 1) ≤ x ∧
      x < (2 : ℚ) ^ ((Nat.log2 x.num.natAbs : Int) - (Nat.log2 x.den : Int) + 1) := by
  have hnum := Rat.num_pos.2 hx
  have hxe : (x.num.natAbs : ℚ) / (x.den : ℚ) = x := by
    have h0 : ((x.num.natAbs : Int) : ℚ) = (x.num : ℚ) := by rw [Int.natAbs_of_nonneg hnum.le]
    rw [← Int.cast_natCast, h0, Rat.num_div_den]
  have := ratio_bounds (n := x.num.natAbs) (d := x.den) (by omega) x.den_nz
  rwa [hxe] at this

/-- `ilog2Real` is the floor of the base-2 logarithm (R80). -/
theorem ilog2Real_bounds {x : ℚ} (hx : 0 < x) :
    (2 : ℚ) ^ ilog2Real x ≤ x ∧ x < (2 : ℚ) ^ (ilog2Real x + 1) := by
  obtain ⟨h1, h2⟩ := candidate_bounds hx
  simp only [ilog2Real, pow2_eq_zpow]
  split
  · exact ⟨‹_›, h2⟩
  · exact ⟨h1, by rw [sub_add_cancel]; exact not_le.1 ‹_›⟩

theorem ilog2Real_eq_iff {x : ℚ} (hx : 0 < x) (n : Int) :
    ilog2Real x = n ↔ (2 : ℚ) ^ n ≤ x ∧ x < (2 : ℚ) ^ (n + 1) := by
  constructor
  · rintro rfl; exact ilog2Real_bounds hx
  · rintro ⟨h1, h2⟩
    obtain ⟨b1, b2⟩ := ilog2Real_bounds hx
    have := (zpow_lt_zpow_iff_right₀ (one_lt_two (α := ℚ))).1 (b1.trans_lt h2)
    have := (zpow_lt_zpow_iff_right₀ (one_lt_two (α := ℚ))).1 (h1.trans_lt b2)
    omega

end Sys2Proof.Machine
end

