-- ==== Sys2Proof/Laws/Patterns.lean ====
section
/-! SUPPORT. Binary64 patterns (R38): the three fields of a pattern, and that `bits64` inverts `val` on every non-zero
real a pattern denotes. -/

namespace Sys2Proof.Machine

theorem expField_lt (b : Real64) : expField b < 2048 := (b.extractLsb' 52 11).isLt

theorem fracField_lt (b : Real64) : fracField b < 2 ^ 52 := (b.extractLsb' 0 52).isLt

/-- The bits of a packed pattern. -/
theorem packReal_bit (s : Bool) (e t i : Nat) : (packReal s e t).getLsbD i =
    if i < 52 then t.testBit i else if i < 63 then e.testBit (i - 52) else (decide (i = 63) && s) := by
  have := BitVec.getLsbD_append (x := BitVec.ofBool s ++ BitVec.ofNat 11 e) (y := BitVec.ofNat 52 t) (i := i)
  rw [packReal]
  refine this.trans ?_
  rw [BitVec.getLsbD_append, BitVec.getLsbD_ofNat, BitVec.getLsbD_ofNat]
  by_cases h1 : i < 52
  · simp [h1]
  · by_cases h2 : i < 63
    · have : i - 52 < 11 := by omega
      simp [h1, h2, this]
    · have : ¬ i - 52 < 11 := by omega
      by_cases h3 : i = 63
      · subst h3; simp
      · have h4 : ¬ (i - 52 - 11 = 0) := by omega
        simp [h1, h2, this, h3, h4]

@[simp] theorem signField_packReal (s : Bool) (e t : Nat) : signField (packReal s e t) = s := by
  rw [signField, packReal_bit]; simp

@[simp] theorem expField_packReal (s : Bool) (e t : Nat) : expField (packReal s e t) = e % 2048 := by
  have h : (packReal s e t).extractLsb' 52 11 = BitVec.ofNat 11 e := by
    apply BitVec.eq_of_getLsbD_eq
    intro i hi
    rw [BitVec.getLsbD_extractLsb', packReal_bit, BitVec.getLsbD_ofNat]
    simp [show 52 + i < 63 by omega]
  simp [expField, h]

@[simp] theorem fracField_packReal (s : Bool) (e t : Nat) : fracField (packReal s e t) = t % 2 ^ 52 := by
  have h : (packReal s e t).extractLsb' 0 52 = BitVec.ofNat 52 t := by
    apply BitVec.eq_of_getLsbD_eq
    intro i hi
    rw [BitVec.getLsbD_extractLsb', packReal_bit, BitVec.getLsbD_ofNat]
    simp [hi]
  simp [fracField, h]

/-- A pattern is its three fields. -/
theorem packReal_fields (b : Real64) : packReal (signField b) (expField b) (fracField b) = b := by
  apply BitVec.eq_of_getLsbD_eq
  intro i hi
  rw [packReal_bit, signField, expField, fracField, BitVec.testBit_toNat, BitVec.testBit_toNat,
    BitVec.getLsbD_extractLsb', BitVec.getLsbD_extractLsb']
  by_cases h1 : i < 52
  · simp [h1]
  · by_cases h2 : i < 63
    · simp [h1, h2, show i - 52 < 11 by omega, show 52 + (i - 52) = i by omega]
    · obtain rfl : i = 63 := by omega
      simp

theorem eq_of_fields {b c : Real64} (hs : signField b = signField c) (he : expField b = expField c)
    (ht : fracField b = fracField c) : b = c := by
  rw [← packReal_fields b, ← packReal_fields c, hs, he, ht]

/-- The magnitude a finite pattern denotes, without its sign. -/
theorem val_of_finite {b : Real64} (h : expField b ≠ 2047) :
    val b = .real (withSign (signField b)
      (if expField b = 0 then (fracField b : ℚ) * (2 : ℚ) ^ (-1074 : Int)
       else (2 ^ 52 + (fracField b : ℚ)) * (2 : ℚ) ^ ((expField b : Int) - 1075))) := by
  simp only [val, h, if_false, pow2_eq_zpow]
  split
  · rfl
  · push_cast; rfl

/-- A pattern denotes a real only when its exponent field is not all ones (R38). -/
theorem expField_of_val {b : Real64} {r : ℚ} (h : val b = .real r) : expField b ≠ 2047 := by
  intro he
  simp only [val, he, if_true] at h
  split at h <;> simp at h

theorem withSign_eq_zero {s : Bool} {a : ℚ} : withSign s a = 0 ↔ a = 0 := by
  cases s <;> simp [withSign]

theorem magnitude_withSign {s : Bool} {a : ℚ} (ha : 0 < a) : magnitude (withSign s a) = a := by
  cases s <;> simp [withSign, magnitude, ha, ha.le]

theorem withSign_neg_iff {s : Bool} {a : ℚ} (ha : 0 < a) : decide (withSign s a < 0) = s := by
  cases s <;> simp [withSign, ha, ha.le]

theorem magnitude_pos {r : ℚ} (h : r ≠ 0) : 0 < magnitude r := by
  unfold magnitude; split
  · linarith
  · exact lt_of_le_of_ne (not_lt.1 ‹_›) h.symm

theorem withSign_magnitude (r : ℚ) : withSign (decide (r < 0)) (magnitude r) = r := by
  by_cases h : r < 0 <;> simp [withSign, magnitude, h]

/-- The logarithm of a subnormal magnitude lies below every normal one's. -/
theorem ilog2Real_subnormal {t : Nat} (h0 : 0 < t) (ht : t < 2 ^ 52) :
    ilog2Real ((t : ℚ) * (2 : ℚ) ^ (-1074 : Int)) = (t.log2 : Int) - 1074 := by
  have hp : (0 : ℚ) < (2 : ℚ) ^ (-1074 : Int) := zpow_pos (by norm_num) _
  have h1 : (0 : ℚ) < t := by exact_mod_cast h0
  rw [ilog2Real_eq_iff (mul_pos h1 hp)]
  have a1 : (2 : ℚ) ^ t.log2 ≤ t := by exact_mod_cast Nat.log2_self_le (by omega)
  have a2 : (t : ℚ) < (2 : ℚ) ^ (t.log2 + 1) := by exact_mod_cast Nat.lt_log2_self
  constructor
  · rw [show (t.log2 : Int) - 1074 = (t.log2 : Int) + (-1074) by ring, zpow_add₀ two_ne_zero, zpow_natCast]
    exact mul_le_mul_of_nonneg_right a1 hp.le
  · rw [show (t.log2 : Int) - 1074 + 1 = ((t.log2 + 1 : Nat) : Int) + (-1074) by push_cast; ring,
      zpow_add₀ two_ne_zero, zpow_natCast]
    exact mul_lt_mul_of_pos_right a2 hp

/-- The logarithm of a normal magnitude is its exponent field less the bias. -/
theorem ilog2Real_normal {t : Nat} (ht : t < 2 ^ 52) (e : Int) :
    ilog2Real ((2 ^ 52 + (t : ℚ)) * (2 : ℚ) ^ (e - 1075)) = e - 1023 := by
  have hp : (0 : ℚ) < (2 : ℚ) ^ (e - 1075) := zpow_pos (by norm_num) _
  have h1 : (0 : ℚ) ≤ t := by positivity
  have h2 : (t : ℚ) < 2 ^ 52 := by exact_mod_cast ht
  rw [ilog2Real_eq_iff (mul_pos (by linarith) hp)]
  constructor
  · rw [show e - 1023 = ((52 : Nat) : Int) + (e - 1075) by push_cast; ring, zpow_add₀ two_ne_zero, zpow_natCast]
    exact mul_le_mul_of_nonneg_right (by linarith) hp.le
  · rw [show e - 1023 + 1 = ((53 : Nat) : Int) + (e - 1075) by push_cast; ring, zpow_add₀ two_ne_zero, zpow_natCast]
    exact mul_lt_mul_of_pos_right (by linarith) hp

theorem floor_natCast_of_eq {x : ℚ} {n : Nat} (h : x = n) : x.floor.toNat = n := by
  subst h; simp [Rat.floor_def]

/-- `bits64` gives back the one pattern of a non-zero real (R38). -/
theorem bits64_of_val {b : Real64} {r : ℚ} (h : val b = .real r) (hr : r ≠ 0) : bits64 r = b := by
  have hE := expField_of_val h
  rw [val_of_finite hE] at h
  have ht := fracField_lt b
  injection h with h
  subst h
  by_cases he : expField b = 0
  · simp only [he, if_true] at hr ⊢
    have h0 : 0 < fracField b := by
      by_contra hc
      exact hr (withSign_eq_zero.2 (by simp [Nat.eq_zero_of_not_pos hc]))
    have ha : 0 < (fracField b : ℚ) * (2 : ℚ) ^ (-1074 : Int) :=
      mul_pos (by exact_mod_cast h0) (zpow_pos (by norm_num) _)
    have hlog : (fracField b).log2 < 52 := (Nat.log2_lt (by omega)).2 ht
    have hf : (fracField b : ℚ) * (2 : ℚ) ^ (-1074 : Int) * (2 : ℚ) ^ (1074 : Int) = (fracField b : Nat) := by
      rw [mul_assoc, ← zpow_add₀ two_ne_zero]; simp
    simp only [bits64, hr, if_false, magnitude_withSign ha, withSign_neg_iff ha, ilog2Real_subnormal h0 ht,
      pow2_eq_zpow]
    rw [if_pos (by omega), floor_natCast_of_eq hf, ← he, packReal_fields]
  · simp only [he, if_false] at hr ⊢
    have h1 : (0 : ℚ) ≤ fracField b := by positivity
    have ha : 0 < (2 ^ 52 + (fracField b : ℚ)) * (2 : ℚ) ^ ((expField b : Int) - 1075) :=
      mul_pos (by linarith) (zpow_pos (by norm_num) _)
    have hf : (2 ^ 52 + (fracField b : ℚ)) * (2 : ℚ) ^ ((expField b : Int) - 1075) *
        (2 : ℚ) ^ (52 - ((expField b : Int) - 1023)) = ((2 ^ 52 + fracField b : Nat) : ℚ) := by
      rw [mul_assoc, ← zpow_add₀ two_ne_zero]
      rw [show (expField b : Int) - 1075 + (52 - ((expField b : Int) - 1023)) = 0 by ring]
      push_cast; ring
    simp only [bits64, hr, if_false, magnitude_withSign ha, withSign_neg_iff ha, ilog2Real_normal ht, pow2_eq_zpow]
    rw [if_neg (by omega), floor_natCast_of_eq hf, Nat.add_sub_cancel_left,
      show ((expField b : Int) - 1023 + 1023).toNat = expField b by omega, packReal_fields]

theorem val_zero : val 0 = .real 0 := by decide +kernel

theorem bits64_zero : bits64 0 = 0 := rfl

/-- A real is representable exactly when some pattern denotes it (R92). -/
theorem representable_iff (r : ℚ) : representable r = true ↔ ∃ b, val b = .real r := by
  simp only [representable, decide_eq_true_eq]
  constructor
  · exact fun h => ⟨_, h⟩
  · rintro ⟨b, hb⟩
    by_cases h0 : r = 0
    · subst h0; exact val_zero
    · rwa [bits64_of_val hb h0]

theorem val_bits64_of_representable {r : ℚ} (h : representable r = true) : val (bits64 r) = .real r := by
  simpa [representable] using h

/-- A pattern with a normal exponent field, put together from its parts, denotes the real its parts say (R38). -/
theorem val_packReal_normal {s : Bool} {e t : Nat} (h1 : 1 ≤ e) (h2 : e ≤ 2046) (ht : t < 2 ^ 52) :
    val (packReal s e t) = .real (withSign s ((2 ^ 52 + (t : ℚ)) * (2 : ℚ) ^ ((e : Int) - 1075))) := by
  have he : e % 2048 = e := Nat.mod_eq_of_lt (by omega)
  have htt : t % 2 ^ 52 = t := Nat.mod_eq_of_lt ht
  rw [val_of_finite (by simp [he]; omega)]
  simp only [signField_packReal, expField_packReal, fracField_packReal, he, htt]
  rw [if_neg (by omega)]

end Sys2Proof.Machine
end

