-- ==== Sys2Proof/Laws/Assemble.lean ====
section
/-! SUPPORT. The operands of a written operation: what each form of operand puts on its port. -/

namespace Sys2Proof.Machine

/-- Every form of `<real>` that denotes an operand puts a pattern on the port that it denotes. -/
theorem realOperand_denotes {x : RealOperand} (h : realOperandOk x = true) : x.Denotes (realOperand x) := by
  cases x with
  | numeral r => exact ⟨val_bits64_of_representable h, fun hr => by simp [realOperand, hr, bits64_zero]⟩
  | pattern c => rfl
  | posInf => show val _ = _; decide +kernel
  | negInf => show val _ = _; decide +kernel
  | nan => show val _ = _; decide +kernel

/-- An exponent that `sc_exp` holds is read back (R39). -/
theorem expOperand_ofInt {k : Int} (h1 : -8 ≤ k) (h2 : k ≤ 7) : expOperand (BitVec.ofInt 4 k) = k := by
  rw [expOperand, BitVec.toInt_ofInt]
  simp only [Int.bmod]
  omega

/-- DEC reads an integer's low ten bits (R37). -/
theorem codeOperand_softwareCode (n : Int) : ((codeOperand (softwareCode n)).toNat : Int) = n % 1024 := by
  simp only [codeOperand, softwareCode, BitVec.extractLsb'_toNat, BitVec.toNat_ofInt]
  omega

/-- The operation a well-formed written operation denotes is the only answer of assembly. -/
theorem wellFormed_of_assemble {p : Written} {i : Instr} (h : assemble p = some i) : p.wellFormed = true := by
  by_contra hp
  simp [assemble, hp] at h

end Sys2Proof.Machine
end

