-- ==== Sys2Proof/Laws/Decode.lean ====
section
/-! SUPPORT. The fields of a packed operation word, and that writing a word in digits loses nothing. -/

namespace Sys2Proof

theorem packWord_bit (u : BitVec 2) (b : BitVec 4) (a : BitVec 64) (i : Nat) : (packWord u b a).getLsbD i =
    if i < 64 then a.getLsbD i else if i < 68 then b.getLsbD (i - 64) else u.getLsbD (i - 68) := by
  have := BitVec.getLsbD_append (x := u ++ b) (y := a) (i := i)
  rw [packWord]
  refine this.trans ?_
  rw [BitVec.getLsbD_append]
  by_cases h1 : i < 64
  · simp [h1]
  · by_cases h2 : i < 68
    · simp [h1, h2, show i - 64 < 4 by omega]
    · simp [h1, h2, show ¬ i - 64 < 4 by omega, show i - 64 - 4 = i - 68 by omega]

@[simp] theorem uopField_packWord (u : BitVec 2) (b : BitVec 4) (a : BitVec 64) : uopField (packWord u b a) = u := by
  apply BitVec.eq_of_getLsbD_eq
  intro i hi
  rw [uopField, BitVec.getLsbD_extractLsb', packWord_bit]
  simp [hi, show ¬ 68 + i < 64 by omega]

@[simp] theorem bField_packWord (u : BitVec 2) (b : BitVec 4) (a : BitVec 64) : bField (packWord u b a) = b := by
  apply BitVec.eq_of_getLsbD_eq
  intro i hi
  rw [bField, BitVec.getLsbD_extractLsb', packWord_bit]
  simp [hi, show 64 + i < 68 by omega]

@[simp] theorem aField_packWord (u : BitVec 2) (b : BitVec 4) (a : BitVec 64) : aField (packWord u b a) = a := by
  apply BitVec.eq_of_getLsbD_eq
  intro i hi
  rw [aField, BitVec.getLsbD_extractLsb', packWord_bit]
  simp [hi]

/-- A word is its three fields. -/
theorem packWord_fields (w : OpWord) : packWord (uopField w) (bField w) (aField w) = w := by
  apply BitVec.eq_of_getLsbD_eq
  intro i hi
  rw [packWord_bit, uopField, bField, aField, BitVec.getLsbD_extractLsb', BitVec.getLsbD_extractLsb',
    BitVec.getLsbD_extractLsb']
  by_cases h1 : i < 64
  · simp [h1]
  · by_cases h2 : i < 68
    · simp [h1, h2, show i - 64 < 4 by omega, show 64 + (i - 64) = i by omega]
    · simp [h1, h2, show i - 68 < 2 by omega, show 68 + (i - 68) = i by omega]

theorem length_digitsOfNat (n v : Nat) : (digitsOfNat n v).length = n := by
  induction n with
  | zero => rfl
  | succ n ih => simp [digitsOfNat, ih]

theorem foldl_digitsOfNat (n v acc : Nat) :
    (digitsOfNat n v).foldl (fun m d => 16 * m + d.toNat) acc = acc * 16 ^ n + v % 16 ^ n := by
  induction n generalizing acc with
  | zero => simp [digitsOfNat, Nat.mod_one]
  | succ n ih =>
    have hv : v % 16 ^ (n + 1) = v / 16 ^ n % 16 * 16 ^ n + v % 16 ^ n := by
      rw [Nat.pow_succ, Nat.mod_mul]; ring
    simp only [digitsOfNat, List.foldl_cons, ih, BitVec.toNat_ofNat, hv]
    norm_num
    ring

/-- Reading back the digits of a number gives the number, less what the digits do not hold. -/
theorem natOfDigits_digitsOfNat (n v : Nat) : natOfDigits (digitsOfNat n v) = v % 16 ^ n := by
  simp [natOfDigits, foldl_digitsOfNat]

theorem foldl_digits (ds : List Digit) (acc : Nat) :
    ds.foldl (fun n d => 16 * n + d.toNat) acc = acc * 16 ^ ds.length + natOfDigits ds := by
  induction ds generalizing acc with
  | nil => simp [natOfDigits]
  | cons d ds ih =>
    rw [natOfDigits, List.foldl_cons, List.foldl_cons, ih, ih (16 * 0 + d.toNat), List.length_cons, Nat.pow_succ]
    ring

/-- The first digit is the most significant one. -/
theorem natOfDigits_cons (d : Digit) (ds : List Digit) :
    natOfDigits (d :: ds) = d.toNat * 16 ^ ds.length + natOfDigits ds := by
  rw [natOfDigits, List.foldl_cons, foldl_digits]
  simp

theorem natOfDigits_lt (ds : List Digit) : natOfDigits ds < 16 ^ ds.length := by
  induction ds with
  | nil => simp [natOfDigits]
  | cons d ds ih =>
    rw [natOfDigits_cons, List.length_cons, Nat.pow_succ]
    have := d.isLt
    nlinarith

theorem digitsOfNat_mod (n v : Nat) : digitsOfNat n (v % 16 ^ n) = digitsOfNat n v := by
  induction n generalizing v with
  | zero => rfl
  | succ n ih =>
    have h : v % 16 ^ (n + 1) % 16 ^ n = v % 16 ^ n := Nat.mod_mod_of_dvd _ (Nat.pow_dvd_pow _ (by omega))
    have h4 : v % 16 ^ (n + 1) / 16 ^ n = v / 16 ^ n % 16 := by
      rw [Nat.pow_succ, Nat.mod_mul_right_div_self]
    rw [digitsOfNat, digitsOfNat, h4, ← ih, h, ih]
    congr 1
    exact BitVec.eq_of_toNat_eq (by simp)

/-- Writing a number read from digits gives the digits. -/
theorem digitsOfNat_natOfDigits (ds : List Digit) : digitsOfNat ds.length (natOfDigits ds) = ds := by
  induction ds with
  | nil => rfl
  | cons d ds ih =>
    have hlt := natOfDigits_lt ds
    have h : (d.toNat * 16 ^ ds.length + natOfDigits ds) / 16 ^ ds.length = d.toNat := by
      rw [Nat.mul_comm, Nat.mul_add_div (by positivity), Nat.div_eq_of_lt hlt, Nat.add_zero]
    have hm : (d.toNat * 16 ^ ds.length + natOfDigits ds) % 16 ^ ds.length = natOfDigits ds := by
      rw [Nat.mul_comm, Nat.mul_add_mod, Nat.mod_eq_of_lt hlt]
    rw [List.length_cons, digitsOfNat, natOfDigits_cons, h, ← digitsOfNat_mod, hm, ih]
    simp

/-- The decoder on the digits of a number that eighteen digits hold. -/
theorem decodeDigits_digitsOfNat {v : Nat} (hv : v < 2 ^ 72) :
    decodeDigits (digitsOfNat 18 v) =
      if v < 2 ^ 70 then .ok (decodeWord (BitVec.ofNat 70 v)) else .rejected .leadDigitAboveThree := by
  have hn : natOfDigits (digitsOfNat 18 v) = v := by
    rw [natOfDigits_digitsOfNat, Nat.mod_eq_of_lt (by norm_num at hv ⊢; exact hv)]
  have h18 : hasEighteenDigits (digitsOfNat 18 v) = true := by simp [hasEighteenDigits, length_digitsOfNat]
  have hl : leadDigitInRange (digitsOfNat 18 v) = decide (v < 2 ^ 70) := by
    simp only [leadDigitInRange, digitsOfNat, List.headD_cons, BitVec.toNat_ofNat]
    rw [decide_eq_decide]
    norm_num at hv ⊢
    omega
  simp only [decodeDigits, h18, hl, hn, if_true, decide_eq_true_eq]

theorem decodeDigits_writeWord (w : OpWord) : decodeDigits (writeWord w) = .ok (decodeWord w) := by
  have h := w.isLt
  rw [writeWord, decodeDigits_digitsOfNat (by omega), if_pos h, BitVec.ofNat_toNat, BitVec.setWidth_eq]

end Sys2Proof
end

