-- ==== Sys2Proof/Laws/State.lean ====
section
/-! SUPPORT. What each update of State does to each field: no later proof unfolds a record update. -/

namespace Sys2Proof.Machine.State

variable (s : State)

@[simp] theorem present_pending (w : OpWord) : (s.present w).pending = w :: s.pending := rfl
@[simp] theorem present_encSpeed (w : OpWord) : (s.present w).encSpeed = s.encSpeed := rfl
@[simp] theorem present_encCode (w : OpWord) : (s.present w).encCode = s.encCode := rfl
@[simp] theorem present_decCode (w : OpWord) : (s.present w).decCode = s.decCode := rfl
@[simp] theorem present_decSpeed (w : OpWord) : (s.present w).decSpeed = s.decSpeed := rfl
@[simp] theorem present_lgX (w : OpWord) : (s.present w).lgX = s.lgX := rfl
@[simp] theorem present_lgY (w : OpWord) : (s.present w).lgY = s.lgY := rfl
@[simp] theorem present_scValue (w : OpWord) : (s.present w).scValue = s.scValue := rfl
@[simp] theorem present_scExp (w : OpWord) : (s.present w).scExp = s.scExp := rfl
@[simp] theorem present_scY (w : OpWord) : (s.present w).scY = s.scY := rfl
@[simp] theorem present_y (w : OpWord) : (s.present w).y = s.y := rfl
@[simp] theorem present_draws (w : OpWord) : (s.present w).draws = s.draws := rfl

@[simp] theorem driveEnc_pending (b : Real64) (c : Code16) : (s.driveEnc b c).pending = s.pending := rfl
@[simp] theorem driveEnc_encSpeed (b : Real64) (c : Code16) : (s.driveEnc b c).encSpeed = b := rfl
@[simp] theorem driveEnc_encCode (b : Real64) (c : Code16) : (s.driveEnc b c).encCode = c := rfl
@[simp] theorem driveEnc_decCode (b : Real64) (c : Code16) : (s.driveEnc b c).decCode = s.decCode := rfl
@[simp] theorem driveEnc_decSpeed (b : Real64) (c : Code16) : (s.driveEnc b c).decSpeed = s.decSpeed := rfl
@[simp] theorem driveEnc_lgX (b : Real64) (c : Code16) : (s.driveEnc b c).lgX = s.lgX := rfl
@[simp] theorem driveEnc_lgY (b : Real64) (c : Code16) : (s.driveEnc b c).lgY = s.lgY := rfl
@[simp] theorem driveEnc_scValue (b : Real64) (c : Code16) : (s.driveEnc b c).scValue = s.scValue := rfl
@[simp] theorem driveEnc_scExp (b : Real64) (c : Code16) : (s.driveEnc b c).scExp = s.scExp := rfl
@[simp] theorem driveEnc_scY (b : Real64) (c : Code16) : (s.driveEnc b c).scY = s.scY := rfl
@[simp] theorem driveEnc_y (b : Real64) (c : Code16) : (s.driveEnc b c).y = s.y := rfl
@[simp] theorem driveEnc_draws (b : Real64) (c : Code16) : (s.driveEnc b c).draws = s.draws := rfl

@[simp] theorem driveDec_pending (c : Code16) (b : Real64) : (s.driveDec c b).pending = s.pending := rfl
@[simp] theorem driveDec_encSpeed (c : Code16) (b : Real64) : (s.driveDec c b).encSpeed = s.encSpeed := rfl
@[simp] theorem driveDec_encCode (c : Code16) (b : Real64) : (s.driveDec c b).encCode = s.encCode := rfl
@[simp] theorem driveDec_decCode (c : Code16) (b : Real64) : (s.driveDec c b).decCode = c := rfl
@[simp] theorem driveDec_decSpeed (c : Code16) (b : Real64) : (s.driveDec c b).decSpeed = b := rfl
@[simp] theorem driveDec_lgX (c : Code16) (b : Real64) : (s.driveDec c b).lgX = s.lgX := rfl
@[simp] theorem driveDec_lgY (c : Code16) (b : Real64) : (s.driveDec c b).lgY = s.lgY := rfl
@[simp] theorem driveDec_scValue (c : Code16) (b : Real64) : (s.driveDec c b).scValue = s.scValue := rfl
@[simp] theorem driveDec_scExp (c : Code16) (b : Real64) : (s.driveDec c b).scExp = s.scExp := rfl
@[simp] theorem driveDec_scY (c : Code16) (b : Real64) : (s.driveDec c b).scY = s.scY := rfl
@[simp] theorem driveDec_y (c : Code16) (b : Real64) : (s.driveDec c b).y = s.y := rfl
@[simp] theorem driveDec_draws (c : Code16) (b : Real64) : (s.driveDec c b).draws = s.draws := rfl

@[simp] theorem driveIlog2_pending (b : Real64) (n : BitVec 12) : (s.driveIlog2 b n).pending = s.pending := rfl
@[simp] theorem driveIlog2_encSpeed (b : Real64) (n : BitVec 12) : (s.driveIlog2 b n).encSpeed = s.encSpeed := rfl
@[simp] theorem driveIlog2_encCode (b : Real64) (n : BitVec 12) : (s.driveIlog2 b n).encCode = s.encCode := rfl
@[simp] theorem driveIlog2_decCode (b : Real64) (n : BitVec 12) : (s.driveIlog2 b n).decCode = s.decCode := rfl
@[simp] theorem driveIlog2_decSpeed (b : Real64) (n : BitVec 12) : (s.driveIlog2 b n).decSpeed = s.decSpeed := rfl
@[simp] theorem driveIlog2_lgX (b : Real64) (n : BitVec 12) : (s.driveIlog2 b n).lgX = b := rfl
@[simp] theorem driveIlog2_lgY (b : Real64) (n : BitVec 12) : (s.driveIlog2 b n).lgY = n := rfl
@[simp] theorem driveIlog2_scValue (b : Real64) (n : BitVec 12) : (s.driveIlog2 b n).scValue = s.scValue := rfl
@[simp] theorem driveIlog2_scExp (b : Real64) (n : BitVec 12) : (s.driveIlog2 b n).scExp = s.scExp := rfl
@[simp] theorem driveIlog2_scY (b : Real64) (n : BitVec 12) : (s.driveIlog2 b n).scY = s.scY := rfl
@[simp] theorem driveIlog2_y (b : Real64) (n : BitVec 12) : (s.driveIlog2 b n).y = s.y := rfl
@[simp] theorem driveIlog2_draws (b : Real64) (n : BitVec 12) : (s.driveIlog2 b n).draws = s.draws := rfl

@[simp] theorem driveScale_pending (b : Real64) (k : BitVec 4) (p : Real64) : (s.driveScale b k p).pending = s.pending := rfl
@[simp] theorem driveScale_encSpeed (b : Real64) (k : BitVec 4) (p : Real64) : (s.driveScale b k p).encSpeed = s.encSpeed := rfl
@[simp] theorem driveScale_encCode (b : Real64) (k : BitVec 4) (p : Real64) : (s.driveScale b k p).encCode = s.encCode := rfl
@[simp] theorem driveScale_decCode (b : Real64) (k : BitVec 4) (p : Real64) : (s.driveScale b k p).decCode = s.decCode := rfl
@[simp] theorem driveScale_decSpeed (b : Real64) (k : BitVec 4) (p : Real64) : (s.driveScale b k p).decSpeed = s.decSpeed := rfl
@[simp] theorem driveScale_lgX (b : Real64) (k : BitVec 4) (p : Real64) : (s.driveScale b k p).lgX = s.lgX := rfl
@[simp] theorem driveScale_lgY (b : Real64) (k : BitVec 4) (p : Real64) : (s.driveScale b k p).lgY = s.lgY := rfl
@[simp] theorem driveScale_scValue (b : Real64) (k : BitVec 4) (p : Real64) : (s.driveScale b k p).scValue = b := rfl
@[simp] theorem driveScale_scExp (b : Real64) (k : BitVec 4) (p : Real64) : (s.driveScale b k p).scExp = k := rfl
@[simp] theorem driveScale_scY (b : Real64) (k : BitVec 4) (p : Real64) : (s.driveScale b k p).scY = p := rfl
@[simp] theorem driveScale_y (b : Real64) (k : BitVec 4) (p : Real64) : (s.driveScale b k p).y = s.y := rfl
@[simp] theorem driveScale_draws (b : Real64) (k : BitVec 4) (p : Real64) : (s.driveScale b k p).draws = s.draws := rfl

@[simp] theorem answer_pending (r : BitVec 64) : (s.answer r).pending = s.pending := rfl
@[simp] theorem answer_encSpeed (r : BitVec 64) : (s.answer r).encSpeed = s.encSpeed := rfl
@[simp] theorem answer_encCode (r : BitVec 64) : (s.answer r).encCode = s.encCode := rfl
@[simp] theorem answer_decCode (r : BitVec 64) : (s.answer r).decCode = s.decCode := rfl
@[simp] theorem answer_decSpeed (r : BitVec 64) : (s.answer r).decSpeed = s.decSpeed := rfl
@[simp] theorem answer_lgX (r : BitVec 64) : (s.answer r).lgX = s.lgX := rfl
@[simp] theorem answer_lgY (r : BitVec 64) : (s.answer r).lgY = s.lgY := rfl
@[simp] theorem answer_scValue (r : BitVec 64) : (s.answer r).scValue = s.scValue := rfl
@[simp] theorem answer_scExp (r : BitVec 64) : (s.answer r).scExp = s.scExp := rfl
@[simp] theorem answer_scY (r : BitVec 64) : (s.answer r).scY = s.scY := rfl
@[simp] theorem answer_y (r : BitVec 64) : (s.answer r).y = r := rfl
@[simp] theorem answer_draws (r : BitVec 64) : (s.answer r).draws = s.draws + 1 := rfl

@[simp] theorem fetch_present (w : OpWord) : (s.present w).fetch = some (w, s) := rfl

theorem fetch_of_nil (h : s.pending = []) : s.fetch = none := by simp [fetch, h]

theorem fetch_of_cons {w : OpWord} {rest : List OpWord} (h : s.pending = w :: rest) :
    s.fetch = some (w, { s with pending := rest }) := by simp [fetch, h]

end Sys2Proof.Machine.State
end

