-- ==== Sys2Proof/Laws/Exec.lean ====
section
/-! SUPPORT. What each operation does, said once: exec as an equation for each operation, and what a step can answer. -/

namespace Sys2Proof.Machine

variable (s : State)

theorem exec_enc (b : Real64) : exec (.enc b) s = .next
    ((s.driveEnc b (encPort b (Config.any10 s.draws))).answer
      ((encPort b (Config.any10 s.draws)).setWidth 64)) := rfl

theorem exec_dec (v : Code16) : exec (.dec v) s = .next ((s.driveDec v (decPort v)).answer (decPort v)) := rfl

theorem exec_ilog2 (b : Real64) : exec (.ilog2 b) s = .next
    ((s.driveIlog2 b (ilog2Port b (Config.any12 s.draws))).answer
      ((ilog2Port b (Config.any12 s.draws)).signExtend 64)) := rfl

theorem exec_scale (b : Real64) (k : BitVec 4) : exec (.scale b k) s = .next
    ((s.driveScale b k (scalePort b (expOperand k) (Config.any64 s.draws))).answer
      (scalePort b (expOperand k) (Config.any64 s.draws))) := rfl

/-- What a step can do: nothing, with nothing pending, or one evaluation of the first pending word. -/
theorem step_next_cases {t : State} (h : step s = .next t) :
    (s.pending = [] ∧ t = s) ∨
      ∃ w rest, s.pending = w :: rest ∧ exec (decodeWord w) { s with pending := rest } = .next t := by
  unfold step at h
  cases hp : s.pending with
  | nil =>
    rw [s.fetch_of_nil hp] at h
    injection h with h
    exact .inl ⟨rfl, h.symm⟩
  | cons w rest =>
    rw [s.fetch_of_cons hp] at h
    exact .inr ⟨w, rest, rfl, h⟩

end Sys2Proof.Machine
end

