-- ==== Sys2Proof/Laws/PerInstr.lean ====
section
/-! SUPPORT. Facts about every operation as syntax, one lemma for each constructor. -/

/-! The encoder spells every operation canonically: well formed, ignored fields zero (R43). -/

namespace Sys2Proof.Laws.CanonicalSpelling

open Sys2Proof

def Statement (i : Instr) : Prop := i.wellFormed = true ∧ canonicalWord (encodeWord i) = true

theorem of_packWord {u : BitVec 2} {b : BitVec 4} {a : BitVec 64} (hb : u = 3#2 ∨ b = 0#4)
    (ha : u ≠ 1#2 ∨ a.extractLsb' 16 48 = 0#48) : canonicalWord (packWord u b a) = true := by
  have hu : (packWord u b a).extractLsb' 68 2 = u := uopField_packWord u b a
  have hbf : (packWord u b a).extractLsb' 64 4 = b := bField_packWord u b a
  have haf : (packWord u b a).extractLsb' 16 48 = a.extractLsb' 16 48 := by
    apply BitVec.eq_of_getLsbD_eq
    intro i hi
    rw [BitVec.getLsbD_extractLsb', packWord_bit, BitVec.getLsbD_extractLsb']
    simp [show 16 + i < 64 by omega]
  rw [canonicalWord, hu, hbf, haf]
  rcases hb with rfl | rfl <;> rcases ha with h | h <;> simp [h]

theorem enc (speed : Real64) : Statement (.enc speed) := ⟨rfl, of_packWord (.inr rfl) (.inl (by decide))⟩

theorem dec (code : Code16) : Statement (.dec code) := by
  refine ⟨rfl, of_packWord (.inr rfl) (.inr ?_)⟩
  apply BitVec.eq_of_getLsbD_eq
  intro i hi
  simp

theorem ilog2 (x : Real64) : Statement (.ilog2 x) := ⟨rfl, of_packWord (.inr rfl) (.inl (by decide))⟩

theorem scale (value : Real64) (exp : BitVec 4) : Statement (.scale value exp) :=
  ⟨rfl, of_packWord (.inl rfl) (.inl (by decide))⟩

end Sys2Proof.Laws.CanonicalSpelling
end

