-- ==== Sys2Proof/Laws/Ports.lean ====
section
/-! SUPPORT. The operations on reals, with their guards resolved; and each port function on each class of pattern. -/

namespace Sys2Proof.Machine

theorem encReal_low {x : ℚ} (h : x ≤ 0) : encReal x = 0 := by simp [encReal, h]

theorem encReal_linear {x : ℚ} (h0 : 0 < x) (h2 : x ≤ 2) : encReal x = rhaz (x * 64) := by
  simp [encReal, not_le.2 h0, h2]

theorem encReal_exponent {x : ℚ} (h : 2 < x) : encReal x =
    ilog2Real (min x 255) * 128 + rhaz (min x 255 * (2 : ℚ) ^ (7 - ilog2Real (min x 255)) - 128) := by
  have h0 : ¬ x ≤ 0 := by linarith
  simp only [encReal, h0, not_le.2 h, if_false, encExponentBranch, clampHigh_eq_min, scaleReal_eq, assembleCode]
  norm_num

/-- The clamped speed of the exponent branch, its exponent and its window (R62 to R64). -/
theorem exponent_branch_bounds {x : ℚ} (h : 2 < x) :
    2 < min x 255 ∧ min x 255 ≤ 255 ∧ 1 ≤ ilog2Real (min x 255) ∧ ilog2Real (min x 255) ≤ 7 ∧
      128 ≤ min x 255 * (2 : ℚ) ^ (7 - ilog2Real (min x 255)) ∧
      min x 255 * (2 : ℚ) ^ (7 - ilog2Real (min x 255)) < 256 := by
  have h2 : 2 < min x 255 := lt_min h (by norm_num)
  have h255 : min x 255 ≤ 255 := min_le_right _ _
  generalize min x 255 = c at *
  obtain ⟨b1, b2⟩ := ilog2Real_bounds (x := c) (by linarith)
  have hp : (0 : ℚ) < (2 : ℚ) ^ (7 - ilog2Real c) := zpow_pos (by norm_num) _
  refine ⟨h2, h255, ?_, ?_, ?_, ?_⟩
  · by_contra hc
    have : (2 : ℚ) ^ (ilog2Real c + 1) ≤ (2 : ℚ) ^ (1 : Int) := zpow_le_zpow_right₀ (by norm_num) (by omega)
    norm_num at this; linarith
  · by_contra hc
    have : (2 : ℚ) ^ (8 : Int) ≤ (2 : ℚ) ^ (ilog2Real c) := zpow_le_zpow_right₀ (by norm_num) (by omega)
    norm_num at this; linarith
  · calc (128 : ℚ) = (2 : ℚ) ^ ilog2Real c * (2 : ℚ) ^ (7 - ilog2Real c) := by
          rw [← zpow_add₀ two_ne_zero]; norm_num
      _ ≤ _ := mul_le_mul_of_nonneg_right b1 hp.le
  · calc _ < (2 : ℚ) ^ (ilog2Real c + 1) * (2 : ℚ) ^ (7 - ilog2Real c) := mul_lt_mul_of_pos_right b2 hp
      _ = 256 := by
          rw [← zpow_add₀ two_ne_zero, show ilog2Real c + 1 + (7 - ilog2Real c) = 8 by ring]; norm_num

theorem mantissaField_eq (c : Nat) : mantissaField c = c % 128 := Nat.and_two_pow_sub_one_eq_mod c 7

theorem exponentField_eq (c : Nat) : exponentField c = c / 128 % 8 := by
  simp only [exponentField, Config.expMask, Config.mantW, Nat.shiftRight_eq_div_pow]
  exact Nat.and_two_pow_sub_one_eq_mod (c / 128) 3

/-- DEC on the fields of a code: its zero test changes no value (R72, R73). -/
theorem decReal_eq (c : Nat) : decReal c =
    if c / 128 % 8 = 0 then ((c % 128 : Nat) : ℚ) / 64
    else (((c % 128 : Nat) : ℚ) + 128) * (2 : ℚ) ^ (((c / 128 % 8 : Nat) : Int) - 7) := by
  simp only [decReal, mantissaField_eq, exponentField_eq, scaleReal_eq]
  have h6 : (2 : ℚ) ^ (-6 : Int) = 1 / 64 := by norm_num [zpow_neg]
  by_cases hc : c = 0
  · subst hc; simp
  · simp only [hc, if_false, Config.linExp, h6]
    split
    · ring
    · rfl

theorem encPort_real {b : Real64} {x : ℚ} (h : val b = .real x) (d : BitVec 10) :
    encPort b d = BitVec.ofInt 16 (encReal x) := by simp [encPort, h]

theorem ilog2Port_real {b : Real64} {x : ℚ} (h : val b = .real x) (hx : 0 < x) (d : BitVec 12) :
    ilog2Port b d = BitVec.ofInt 12 (ilog2Real x) := by simp [ilog2Port, h, hx]

theorem scalePort_real {b p : Real64} {v : ℚ} {k : Int} (h : val b = .real v) (hv : v ≠ 0)
    (hp : val p = .real (v * (2 : ℚ) ^ k)) (d : BitVec 64) : scalePort b k d = p := by
  have hne : v * (2 : ℚ) ^ k ≠ 0 := mul_ne_zero hv (zpow_ne_zero _ two_ne_zero)
  have hr : representable (v * (2 : ℚ) ^ k) = true := (representable_iff _).2 ⟨p, hp⟩
  simp [scalePort, h, hv, scaleReal_eq, hr, bits64_of_val hp hne]

theorem scalePort_zero {b : Real64} (h : val b = .real 0) (k : Int) (d : BitVec 64) : scalePort b k d = b := by
  simp [scalePort, h]

end Sys2Proof.Machine
end

