-- ==== Sys2Proof/Tests/Slice0.lean ====
section
/-! SUPPORT. The model's own tests, expected results from the spec's tables, and for every obligation with hypotheses a
concrete state and operands that meet them. -/

namespace Sys2Proof.Tests

-- One after another: the kernel's own decisions would otherwise each hold a thread of the compiler, with its stack.
set_option Elab.async false

open Sys2Proof Sys2Proof.Machine

/-- The result word an evaluation leaves. -/
def yOf : Host.Outcome State Fault Refusal → Option (BitVec 64)
  | .next t => some t.y
  | .fault _ => none
  | .refused _ => none

-- ## Decoding, by the bits of R41 and R42

theorem test_decode_enc : decodeWord (0b00#2 ++ 0b0000#4 ++ 0x4059000000000000#64) = .enc 0x4059000000000000#64 := by
  decide

theorem test_decode_enc_ignores_b : decodeWord (0b00#2 ++ 0b1011#4 ++ 0x4059000000000000#64) = .enc 0x4059000000000000#64 := by
  decide

theorem test_decode_dec : decodeWord (0b01#2 ++ 0b0000#4 ++ 0x000000000000#48 ++ 0x0348#16) = .dec 0x0348#16 := by decide

theorem test_decode_ilog2 : decodeWord (0b10#2 ++ 0b0000#4 ++ 0x4020000000000000#64) = .ilog2 0x4020000000000000#64 := by
  decide

theorem test_decode_scale : decodeWord (0b11#2 ++ 0b1010#4 ++ 0x3FF0000000000000#64) = .scale 0x3FF0000000000000#64 0b1010#4 := by
  decide

/-- 95_test_vectors.md, P2 line 4, by its eighteen digits. -/
theorem test_decode_digits :
    decodeDigits [3, 15, 4, 0, 6, 9, 0, 0, 0, 0, 0, 0, 0, 0, 0, 0, 0, 0] = .ok (.scale 0x4069000000000000#64 0xF#4) := by
  decide

theorem test_encode_digits :
    encodeDigits (.scale 0x4069000000000000#64 0xF#4) = [3, 15, 4, 0, 6, 9, 0, 0, 0, 0, 0, 0, 0, 0, 0, 0, 0, 0] := by
  decide

theorem test_table_word : decodeTableWord 72 0x100000000000000348 = some (.dec 0x0348#16) := by decide

theorem test_placed_word_runs : yOf (step (State.reset.withFetchWord 72 0x100000000000000348)) =
    some 0x4059000000000000#64 := by decide +kernel

-- ## Ill-formed terms, one for each check

theorem test_short_word_refused : decodeDigits [0, 0, 4] = .rejected .notEighteenDigits := by decide

theorem test_lead_digit_refused :
    decodeDigits [4, 0, 4, 0, 6, 9, 0, 0, 0, 0, 0, 0, 0, 0, 0, 0, 0, 0] = .rejected .leadDigitAboveThree := by decide

theorem test_long_row_refused : decodeTableWord 80 0 = none := by decide

theorem test_bits_above_69_refused : decodeTableWord 72 0x400000000000000000 = none := by decide

theorem test_b_of_enc_not_canonical : canonicalWord 0x070000000000000000#70 = false := by decide

theorem test_high_a_of_dec_not_canonical : canonicalWord 0x100000000000010000#70 = false := by decide

theorem test_numeral_not_representable : (Written.enc (.numeral (1 / 3))).wellFormed = false := by decide +kernel

theorem test_ilog2_numeral_not_representable : (Written.ilog2 (.numeral (1 / 10))).wellFormed = false := by decide +kernel

theorem test_scale_numeral_not_representable : (Written.scale (.numeral (1 / 3)) 0).wellFormed = false := by decide +kernel

theorem test_scale_exponent_above_range : (Written.scale .nan 8).wellFormed = false := by decide

theorem test_scale_exponent_below_range : (Written.scale .nan (-9)).wellFormed = false := by decide

theorem test_every_operation_well_formed : (Instr.scale 0xFFFFFFFFFFFFFFFF#64 0x8#4).wellFormed = true := by decide

-- ## The written syntax (R45)

theorem test_read_line : readLine "SCALE -3.0, 2 -> -12.0".toList = some (.scale (.numeral (-3)) 2) := by decide +kernel

theorem test_read_nan : assembleLine "ENC nan".toList = some (.enc 0x7FF8000000000000#64) := by decide +kernel

theorem test_read_negative_zero : assembleLine "SCALE -0.0, 3 -> -0.0".toList = some (.scale 0x8000000000000000#64 3#4) := by
  decide +kernel

theorem test_read_negative_code : assembleLine "DEC -1".toList = some (.dec 0xFFFF#16) := by decide +kernel

theorem test_unknown_mnemonic : readLine "ADD 1".toList = none := by decide +kernel

-- ## One step of each operation, at most two (95_test_vectors.md 2.2 to 2.5 and R86, R93)

/-- 3.9921875: the rounded mantissa 128 carries into the exponent field. -/
theorem test_enc_carry : yOf (exec (.enc 0x400FF00000000000#64) State.reset) = some 0x100 := by decide +kernel

/-- 255.5: clamped before the logarithm; without the clamp 1024. -/
theorem test_enc_clamp : yOf (exec (.enc 0x406FF00000000000#64) State.reset) = some 0x3FF := by decide +kernel

theorem test_dec_linear_bucket : yOf (exec (.dec 0x0001#16) State.reset) = some 0x3F90000000000000#64 := by decide +kernel

theorem test_dec_wide_code : yOf (exec (.dec 0xFFFF#16) State.reset) = some 0x406FE00000000000#64 := by decide +kernel

/-- The largest value below 8. -/
theorem test_ilog2_below_eight : yOf (exec (.ilog2 0x401FFFFFFFFFFFFF#64) State.reset) = some 2 := by decide +kernel

/-- The smallest subnormal: -1074, sign extended. -/
theorem test_ilog2_subnormal : yOf (exec (.ilog2 0x0000000000000001#64) State.reset) = some 0xFFFFFFFFFFFFFBCE#64 := by
  decide +kernel

theorem test_scale_negative_operand :
    yOf (exec (.scale 0xC008000000000000#64 2#4) State.reset) = some 0xC028000000000000#64 := by decide +kernel

theorem test_scale_lowest_exponent :
    yOf (exec (.scale 0x4014000000000000#64 8#4) State.reset) = some 0x3F94000000000000#64 := by decide +kernel

/-- ENC of a NaN: the draw of this evaluation, with the six high bits zero (R69). -/
theorem test_enc_nan_draws :
    exec (.enc 0x7FF8000000000000#64) State.reset = .next ((State.reset.driveEnc 0x7FF8000000000000#64
      ((0#6) ++ Config.any10 1)).answer (((0#6) ++ Config.any10 1 : BitVec 16).setWidth 64)) := by
  have h : val 0x7FF8000000000000#64 = .nan := by decide +kernel
  rw [exec_enc]
  simp [encPort, h, State.reset]

-- ## A witness for the hypotheses of each obligation

/-- A state with one word pending: `DEC 840`. -/
def pendingDec : State := State.reset.present 0x100000000000000348#70

/-- EncodeThenDecodeGivesTheOperation. -/
theorem witness_encodeThenDecode : (Instr.dec 0x0348#16).wellFormed = true := by decide

/-- IgnoredFieldsDoNotAffectTheResult, ENC. -/
theorem witness_ignoredFields_enc :
    uopField 0x004059000000000000#70 = uopField 0x0F4059000000000000#70 ∧ uopField 0x004059000000000000#70 = 0 ∧
    aField 0x004059000000000000#70 = aField 0x0F4059000000000000#70 := by decide

/-- IgnoredFieldsDoNotAffectTheResult, DEC. -/
theorem witness_ignoredFields_dec :
    uopField 0x100000000000000348#70 = uopField 0x17FFFFFFFFFFFFFF48#70 ∧ uopField 0x100000000000000348#70 = 1 ∧
    (aField 0x100000000000000348#70).extractLsb' 0 10 = (aField 0x17FFFFFFFFFFFFFF48#70).extractLsb' 0 10 := by decide

/-- IgnoredFieldsDoNotAffectTheResult, ILOG2. -/
theorem witness_ignoredFields_ilog2 :
    uopField 0x204059000000000000#70 = uopField 0x214059000000000000#70 ∧ uopField 0x204059000000000000#70 = 2 ∧
    aField 0x204059000000000000#70 = aField 0x214059000000000000#70 := by decide

/-- IgnoredFieldsDoNotAffectTheResult, SCALE (the word and itself). -/
theorem witness_ignoredFields_scale : uopField 0x3F4069000000000000#70 = 3 := by decide

/-- OnlyWrittenWordsDecode, the count. -/
theorem witness_onlyWrittenWords_short : ([] : List Digit).length ≠ 18 := by decide

/-- OnlyWrittenWordsDecode, the least first digit refused. -/
theorem witness_onlyWrittenWords_lead_four :
    ((4 : Digit) :: 15 :: List.replicate 16 (9 : Digit)).length = 18 ∧ 3 < (4 : Digit).toNat := by decide

/-- OnlyWrittenWordsDecode, the greatest first digit taken. -/
theorem witness_onlyWrittenWords_lead_three :
    ((3 : Digit) :: 15 :: List.replicate 16 (9 : Digit)).length = 18 ∧ (3 : Digit).toNat ≤ 3 := by decide

/-- AssembledFieldsReadBackWithCarry, both clauses at their ends. -/
theorem witness_assembledFields : (7 ≤ 7 ∧ 127 ≤ 127) ∧ ((128 : Nat) = 128 ∧ 6 ≤ 6) := by decide

/-- WrittenOperationsKeepTheirValues, ENC: a numeral, zero, a pattern, the infinities and NaN. -/
theorem witness_written_enc :
    assemble (.enc (.numeral (7 / 2))) = some (.enc 0x400C000000000000#64) ∧
    assemble (.enc (.numeral 0)) = some (.enc 0#64) ∧
    assemble (.enc (.pattern 0x8000000000000000#64)) = some (.enc 0x8000000000000000#64) ∧
    assemble (.enc .posInf) = some (.enc 0x7FF0000000000000#64) ∧
    assemble (.enc .negInf) = some (.enc 0xFFF0000000000000#64) ∧
    assemble (.enc .nan) = some (.enc 0x7FF8000000000000#64) := by decide +kernel

/-- WrittenOperationsKeepTheirValues, ILOG2. -/
theorem witness_written_ilog2 : assemble (.ilog2 (.numeral 8)) = some (.ilog2 0x4020000000000000#64) := by decide +kernel

/-- WrittenOperationsKeepTheirValues, a line. -/
theorem witness_written_line :
    assembleLine "ILOG2 8.0 -> 3 ; exact".toList = some (.ilog2 0x4020000000000000#64) := by decide +kernel

/-- WrittenOperationsKeepTheirValues, SCALE at the lowest exponent and at the highest. -/
theorem witness_written_scale :
    assemble (.scale (.numeral 5) (-8)) = some (.scale 0x4014000000000000#64 8#4) ∧
    assemble (.scale .negInf 7) = some (.scale 0xFFF0000000000000#64 7#4) := by decide +kernel

/-- WrittenOperationsKeepTheirValues, DEC of a negative integer. -/
theorem witness_written_dec : assemble (.dec (-1)) = some (.dec 0xFFFF#16) := by decide

/-- StepRunsTheDecodedWord. -/
theorem witness_stepRunsDecoded : pendingDec.pending = [0x100000000000000348#70] := rfl

/-- StepWithNothingPendingChangesNothing. -/
theorem witness_nothingPending : State.reset.pending = [] := rfl

/-- PlacedWordIsEvaluatedNext. -/
theorem witness_placedWord : decodeTableWord 72 0x100000000000000348 = some (.dec 0x0348#16) := by decide

/-- The output ports of `pendingDec` follow its input ports. -/
theorem pendingDec_ports : pendingDec.PortsFollowInputs := by
  refine ⟨⟨0, by decide +kernel⟩, by decide +kernel, ⟨Config.any12 0, ?_⟩, ⟨0, by decide +kernel⟩⟩
  have h : val pendingDec.lgX = .real 0 := by decide +kernel
  simp [ilog2Port, h]
  rfl

/-- StepKeepsOutputsFollowingInputs. -/
theorem witness_stepKeepsPorts : pendingDec.PortsFollowInputs ∧ ∃ t, step pendingDec = .next t :=
  ⟨pendingDec_ports, _, rfl⟩

/-- StepKeepsResultAnOutput. -/
theorem witness_stepKeepsResult : pendingDec.ResultIsAnOutput ∧ ∃ t, step pendingDec = .next t := ⟨.inl rfl, _, rfl⟩

/-- ResultDependsOnOperandsOnly, SecondEvaluationChangesNothing and EvaluationsOnDifferentUnitsCommute, ENC; the next
four likewise. -/
theorem witness_determined_enc : (Instr.enc 0x4059000000000000#64).Determined := by
  have h : val 0x4059000000000000#64 = .real 100 := by decide +kernel
  simp [Instr.Determined, h]

theorem witness_determined_dec : (Instr.dec 0x0348#16).Determined := trivial

theorem witness_determined_ilog2 : (Instr.ilog2 0x4020000000000000#64).Determined := ⟨8, by decide +kernel, by decide +kernel⟩

theorem witness_determined_scale : (Instr.scale 0x4014000000000000#64 8#4).Determined :=
  ⟨5, by decide +kernel, .inr (by decide +kernel)⟩

theorem witness_determined_scale_zero : (Instr.scale 0x8000000000000000#64 3#4).Determined :=
  ⟨0, by decide +kernel, .inl rfl⟩

/-- EvaluationsOnDifferentUnitsCommute: two determined operations of different units. -/
theorem witness_differentUnits : (Instr.enc 0x4059000000000000#64).mnemonic ≠ (Instr.dec 0x0348#16).mnemonic := by decide

/-- EncEvaluatesItsPort, one pattern for each clause. -/
theorem witness_encPort_classes :
    val 0x7FF8000000000000#64 = .nan ∧ val 0xFFF0000000000000#64 = .inf true ∧
    val 0x7FF0000000000000#64 = .inf false ∧ val 0x400C000000000000#64 = .real (7 / 2) := by decide +kernel

/-- EncLowClampGivesZero and ZeroAndNegativeClamp: -1 and, at the boundary, +0. -/
theorem witness_encLowClamp :
    (val 0xBFF0000000000000#64 = .real (-1) ∧ (-1 : ℚ) ≤ 0) ∧ (val 0#64 = .real 0 ∧ (0 : ℚ) ≤ 0) := by decide +kernel

/-- EncLinearBranchIsNearestSixtyFourth: 2 itself, and 1/64. -/
theorem witness_encLinear :
    (val 0x4000000000000000#64 = .real 2 ∧ (0 : ℚ) < 2 ∧ (2 : ℚ) ≤ 2) ∧
    (val 0x3F90000000000000#64 = .real (1 / 64) ∧ (0 : ℚ) < 1 / 64 ∧ (1 / 64 : ℚ) ≤ 2) := by decide +kernel

/-- EncTinySpeedsGiveZero. -/
theorem witness_encTiny :
    val 0x3F60000000000000#64 = .real (1 / 512) ∧ (0 : ℚ) < 1 / 512 ∧ (1 / 512 : ℚ) < 1 / 128 := by decide +kernel

/-- EncExponentIsOneToSeven. -/
theorem witness_encExponent : (2 : ℚ) < 300 := by norm_num

/-- EncWindowMantissaAndCarry and EncClosedForm: a carry at exponent 6 (127.75), and saturation at exponent 7. -/
theorem witness_encWindow :
    ((2 : ℚ) < 511 / 4 ∧ (511 / 4 : ℚ) = min (511 / 4) 255 ∧ (2 : ℚ) ^ (6 : Int) ≤ 511 / 4 ∧
      (511 / 4 : ℚ) < (2 : ℚ) ^ ((6 : Int) + 1)) ∧
    ((2 : ℚ) < 300 ∧ (255 : ℚ) = min 300 255 ∧ (2 : ℚ) ^ (7 : Int) ≤ 255 ∧ (255 : ℚ) < (2 : ℚ) ^ ((7 : Int) + 1)) := by
  norm_num

/-- EncClosedForm, the linear branch at its end. -/
theorem witness_encClosedForm_linear : (0 : ℚ) < 2 ∧ (2 : ℚ) ≤ 2 ∧ (1 : Int) = 1 := by norm_num

/-- EncWindowMantissaAndCarry, the last exponent that carries. -/
theorem witness_encWindow_carries : 1 ≤ 6 ∧ 6 ≤ 6 := by decide

/-- EncSaturates, and CompositeIsAMonotoneStepFunction above the range. -/
theorem witness_encSaturates : (509 / 2 : ℚ) ≤ 509 / 2 := le_rfl

/-- EncIsABitLevelDatapath: the pattern just above 2, and 255. -/
theorem witness_encBitLevel :
    (signField 0x4000000000000001#64 = false ∧ 1024 ≤ expField 0x4000000000000001#64 ∧
      expField 0x4000000000000001#64 ≤ 1030 ∧ ¬ (expField 0x4000000000000001#64 = 1024 ∧ fracField 0x4000000000000001#64 = 0)) ∧
    (signField 0x406FE00000000000#64 = false ∧ expField 0x406FE00000000000#64 = 1030 ∧
      fracField 0x406FE00000000000#64 ≤ 0xFE00000000000) := by decide

/-- EncIsABitLevelDatapath: the pattern just above 255, and 256. -/
theorem witness_encBitLevel_clamped :
    (signField 0x406FE00000000001#64 = false ∧ expField 0x406FE00000000001#64 = 1030 ∧
      0xFE00000000000 < fracField 0x406FE00000000001#64) ∧
    (signField 0x4070000000000000#64 = false ∧ expField 0x4070000000000000#64 ≠ 2047 ∧
      1031 ≤ expField 0x4070000000000000#64) := by decide

/-- DecReadsOnlyTheLowTenBits. -/
theorem witness_decLowBits : (0x0040#16).extractLsb' 0 10 = (0x0440#16).extractLsb' 0 10 := by decide

/-- DecValueByExponentField and DecPatternClosedForm: code 0, the top of bucket 0, the top of bucket 7. -/
theorem witness_decFields :
    (0 ≤ 7 ∧ 0 ≤ 127 ∧ ((0x0400#16).extractLsb' 0 10).toNat = 128 * 0 + 0) ∧
    (0 ≤ 7 ∧ 127 ≤ 127 ∧ ((0x007F#16).extractLsb' 0 10).toNat = 128 * 0 + 127 ∧ 2 ^ 6 ≤ 127 ∧ 127 < 2 ^ (6 + 1)) ∧
    (1 ≤ 7 ∧ 7 ≤ 7 ∧ ((0xFFFF#16).extractLsb' 0 10).toNat = 128 * 7 + 127) := by decide

/-- GridRoundTripIsLossless, CodecIsMonotone and PassesThroughTheGridAreProjections, the last code. -/
theorem witness_gridCodes : (1023 ≤ 1023 ∧ decReal 1023 = decReal 1023) ∧ 0 < 1023 := by decide +kernel

/-- CodecIsMonotone, CompositeIsAMonotoneStepFunction and PrecisionIsHalfAStep, at the ends of the range. -/
theorem witness_speedOrder : (254 : ℚ) ≤ 255 ∧ (0 : ℚ) ≤ 0 ∧ (0 : ℚ) < 255 ∧ (255 : ℚ) ≤ 255 := by norm_num

/-- PrecisionIsHalfAStep, a tie. -/
theorem witness_tie : 896 ≤ 1022 ∧ (257 / 2 : ℚ) = (decReal 896 + decReal (896 + 1)) / 2 := by decide +kernel

/-- PowersOfTwoAreExact, the last one. -/
theorem witness_powersOfTwo : 1 ≤ 7 ∧ 7 ≤ 7 := by decide

/-- RoundingIsHalfAwayFromZero, both signs. -/
theorem witness_rounding : (0 : ℚ) ≤ 5 / 2 ∧ (-5 / 2 : ℚ) < 0 := by norm_num

/-- Ilog2EvaluatesItsPort and Ilog2IsTheFloorOfTheLogarithm: the smallest subnormal. -/
theorem witness_ilog2 : val 0x0000000000000001#64 = .real (pow2 (-1074)) ∧ 0 < pow2 (-1074) := by decide +kernel

/-- Ilog2EvaluatesItsPort, the draw. -/
theorem witness_ilog2_draws : ¬ ∃ x, val 0xBFF0000000000000#64 = .real x ∧ 0 < x := by
  have h : val 0xBFF0000000000000#64 = .real (-1) := by decide +kernel
  rintro ⟨x, hx, h0⟩
  rw [h] at hx
  injection hx with hx
  linarith

/-- Ilog2IsExactAtPowersOfTwo. -/
theorem witness_ilog2_below_power : (2 : ℚ) ^ ((3 : Int) - 1) ≤ 7 ∧ (7 : ℚ) < (2 : ℚ) ^ (3 : Int) := by norm_num

/-- Ilog2IsTheExponentField: the largest finite value, and the smallest subnormal. -/
theorem witness_ilog2_exponentField :
    (signField 0x7FEFFFFFFFFFFFFF#64 = false ∧ 1 ≤ expField 0x7FEFFFFFFFFFFFFF#64 ∧ expField 0x7FEFFFFFFFFFFFFF#64 ≤ 2046) ∧
    (signField 0x0000000000000001#64 = false ∧ expField 0x0000000000000001#64 = 0 ∧ fracField 0x0000000000000001#64 ≠ 0 ∧
      2 ^ 0 ≤ fracField 0x0000000000000001#64 ∧ fracField 0x0000000000000001#64 < 2 ^ (0 + 1)) := by decide

/-- ScaleEvaluatesItsPort and ScaleKeepsTheSignOfZero: -0.0. -/
theorem witness_scale_zero : val 0x8000000000000000#64 = .real 0 := by decide +kernel

/-- ScaleEvaluatesItsPort, a representable product. -/
theorem witness_scale_product :
    val 0x4014000000000000#64 = .real 5 ∧ (5 : ℚ) ≠ 0 ∧ val 0x3F94000000000000#64 = .real (5 * (2 : ℚ) ^ (8#4).toInt) := by
  refine ⟨by decide +kernel, by norm_num, ?_⟩
  rw [show (8#4).toInt = -8 by decide, ← pow2_eq_zpow]
  decide +kernel

/-- ScaleEvaluatesItsPort, a draw: the largest finite value doubled is no pattern's. -/
theorem witness_scale_draws : ∃ v, val 0x7FEFFFFFFFFFFFFF#64 = .real v ∧ v ≠ 0 ∧
    ¬ ∃ q, val q = .real (v * (2 : ℚ) ^ (1#4).toInt) := by
  refine ⟨((2 ^ 53 - 1 : Nat) : ℚ) * pow2 971, by decide +kernel, by decide +kernel, ?_⟩
  rw [← representable_iff, show (1#4).toInt = 1 by decide, ← pow2_eq_zpow]
  decide +kernel

/-- ScaleEvaluatesItsPort, a draw on an infinity. -/
theorem witness_scale_not_finite : ¬ ∃ v, val 0x7FF0000000000000#64 = .real v := by
  have h : val 0x7FF0000000000000#64 = .inf false := by decide +kernel
  simp [h]

/-- ScaleIsMultiplicationByAPowerOfTwo, both arms. -/
theorem witness_scale_exponents : 0 ≤ (7 : Int) ∧ (-8 : Int) < 0 := by decide

/-- ScaleAddsToTheExponentField: down to 1, and up to 2046. -/
theorem witness_scale_adds :
    (1 ≤ expField 0x0090000000000000#64 ∧ expField 0x0090000000000000#64 ≤ 2046 ∧
      1 ≤ (expField 0x0090000000000000#64 : Int) + (8#4).toInt ∧ (expField 0x0090000000000000#64 : Int) + (8#4).toInt ≤ 2046) ∧
    (1 ≤ expField 0x7F70000000000000#64 ∧ expField 0x7F70000000000000#64 ≤ 2046 ∧
      (expField 0x7F70000000000000#64 : Int) + (7#4).toInt ≤ 2046) := by decide

/-- ScaleDrawsOnlyAtExtremeMagnitudes. -/
theorem witness_scale_magnitude :
    val 0xC008000000000000#64 = .real (-3) ∧ (2 : ℚ) ^ (-1014 : Int) ≤ |(-3)| ∧ |(-3 : ℚ)| < (2 : ℚ) ^ (1017 : Int) := by
  rw [← pow2_eq_zpow, ← pow2_eq_zpow]
  decide +kernel

/-- PatternsDenoteDistinctReals. -/
theorem witness_patterns : (5 : ℚ) ≠ 0 ∧ val 0x4014000000000000#64 = .real 5 := by decide +kernel

/-- EncIsBuiltFromItsHelperUnits: 255 itself, and 300, clamped to it. -/
theorem witness_encHelpers :
    (val 0x406FE00000000000#64 = .real 255 ∧ (2 : ℚ) < 255 ∧ val 0x406FE00000000000#64 = .real (min 255 255)) ∧
    (val 0x4072C00000000000#64 = .real 300 ∧ (2 : ℚ) < 300 ∧ val 0x406FE00000000000#64 = .real (min 300 255)) := by
  norm_num
  decide +kernel

/-- DecIsBuiltFromItsHelperUnit: code 127 in bucket 0 and code 840 in bucket 6. -/
theorem witness_decHelper :
    (((0x007F#16).extractLsb' 0 10).toNat = 128 * 0 + 127 ∧ val 0x405FC00000000000#64 = .real ((127 : Nat) : ℚ) ∧
      signField 0x405FC00000000000#64 = false ∧ (0xA#4).toInt = -6) ∧
    (((0x0348#16).extractLsb' 0 10).toNat = 128 * 6 + 72 ∧ val 0x4069000000000000#64 = .real (((72 : Nat) : ℚ) + 128) ∧
      (0xF#4).toInt = ((6 : Nat) : Int) - 7) := by decide +kernel

end Sys2Proof.Tests
end

section
/-! PROOFS. The step as the evaluation of the decoded word, the two invariants of the ports, and that a result which is
no draw is the operands' alone (10_state.md). -/

namespace Sys2Proof.Machine

-- ## The step

theorem step_of_cons {s : State} {w : OpWord} {rest : List OpWord} (h : s.pending = w :: rest) :
    step s = exec (decodeWord w) { s with pending := rest } := by
  rw [step, State.fetch_of_cons s h]

theorem step_of_nil {s : State} (h : s.pending = []) : step s = .next s := by
  rw [step, State.fetch_of_nil s h]

/-- Settles O11: the step's equation with a word pending. -/
theorem stepRunsTheDecodedWord : Obligations.StepRunsTheDecodedWord :=
  fun _ _ _ h => step_of_cons h

/-- Settles O12: the step's equation with nothing pending. -/
theorem stepWithNothingPendingChangesNothing : Obligations.StepWithNothingPendingChangesNothing :=
  fun _ h => step_of_nil h

-- ## Output ports follow input ports: each update of State keeps it when it drives a unit's output by the unit's port
-- function, and leaves the other units' ports alone

namespace State.PortsFollowInputs

variable {s : State} (h : s.PortsFollowInputs)

include h

theorem with_pending (ws : List OpWord) : { s with pending := ws }.PortsFollowInputs :=
  ⟨h.enc, h.dec, h.ilog2, h.scale⟩

theorem answer (r : BitVec 64) : (s.answer r).PortsFollowInputs :=
  ⟨h.enc, h.dec, h.ilog2, h.scale⟩

theorem driveEnc (b : Real64) (draw : BitVec 10) : (s.driveEnc b (encPort b draw)).PortsFollowInputs :=
  ⟨⟨draw, rfl⟩, h.dec, h.ilog2, h.scale⟩

theorem driveDec (v : Code16) : (s.driveDec v (decPort v)).PortsFollowInputs :=
  ⟨h.enc, rfl, h.ilog2, h.scale⟩

theorem driveIlog2 (b : Real64) (draw : BitVec 12) : (s.driveIlog2 b (ilog2Port b draw)).PortsFollowInputs :=
  ⟨h.enc, h.dec, ⟨draw, rfl⟩, h.scale⟩

theorem driveScale (b : Real64) (k : BitVec 4) (draw : BitVec 64) :
    (s.driveScale b k (scalePort b (expOperand k) draw)).PortsFollowInputs :=
  ⟨h.enc, h.dec, h.ilog2, ⟨draw, rfl⟩⟩

/-- Every evaluation drives one unit by its port function and then answers. -/
theorem exec_next {i : Instr} {t : State} (he : exec i s = .next t) : t.PortsFollowInputs := by
  cases i with
  | enc b =>
    rw [exec_enc] at he
    cases he
    exact (h.driveEnc b _).answer _
  | dec v =>
    rw [exec_dec] at he
    cases he
    exact (h.driveDec v).answer _
  | ilog2 b =>
    rw [exec_ilog2] at he
    cases he
    exact (h.driveIlog2 b _).answer _
  | scale b k =>
    rw [exec_scale] at he
    cases he
    exact (h.driveScale b k _).answer _

end State.PortsFollowInputs

/-- Settles O16: a step is idle or one evaluation after the host's list is shortened, and both keep the invariant. -/
theorem stepKeepsOutputsFollowingInputs : Obligations.StepKeepsOutputsFollowingInputs := by
  intro s t h hstep
  obtain ⟨-, rfl⟩ | ⟨w, rest, -, he⟩ := step_next_cases s hstep
  · exact h
  · exact (h.with_pending rest).exec_next he

-- ## The ports on zero, which every input port carries at reset (assumption 3)

theorem encPort_zero (draw : BitVec 10) : encPort 0 draw = 0 := by
  rw [encPort_real val_zero, encReal_low le_rfl]
  rfl

theorem decPort_zero : decPort 0 = 0 := by
  have h : (codeOperand 0).toNat = 0 := rfl
  rw [decPort, h, decReal, if_pos rfl, bits64_zero]

/-- Zero is outside the domain of ILOG2, so that the port carries the draw (R84). -/
theorem ilog2Port_zero (draw : BitVec 12) : ilog2Port 0 draw = draw := by
  rw [ilog2Port, val_zero]
  exact if_neg (lt_irrefl 0)

theorem reset_portsFollowInputs : State.reset.PortsFollowInputs where
  enc := ⟨0, (encPort_zero 0).symm⟩
  dec := decPort_zero.symm
  ilog2 := ⟨Config.any12 0, (ilog2Port_zero _).symm⟩
  scale := ⟨0, (scalePort_zero val_zero _ 0).symm⟩

theorem reset_resultIsAnOutput : State.reset.ResultIsAnOutput :=
  .inr (.inl rfl)

/-- Settles O18: at reset each output port carries its port function's value on zero, and `y` is the zero on
`dec_speed`. -/
theorem resetMeetsTheInvariants : Obligations.ResetMeetsTheInvariants :=
  ⟨reset_portsFollowInputs, reset_resultIsAnOutput⟩

-- ## A determined operation's port function gives the same under every draw

theorem encPort_eq_of_determined {b : Real64} (h : (Instr.enc b).Determined) (d d' : BitVec 10) :
    encPort b d = encPort b d' := by
  cases hv : val b with
  | real x => rw [encPort_real hv, encPort_real hv]
  | inf neg => cases neg <;> simp [encPort, hv]
  | nan => exact absurd hv h

theorem ilog2Port_eq_of_determined {b : Real64} (h : (Instr.ilog2 b).Determined) (d d' : BitVec 12) :
    ilog2Port b d = ilog2Port b d' := by
  obtain ⟨r, hv, hr⟩ := h
  rw [ilog2Port_real hv hr, ilog2Port_real hv hr]

theorem scalePort_eq_of_determined {b : Real64} {k : BitVec 4} (h : (Instr.scale b k).Determined) (d d' : BitVec 64) :
    scalePort b (expOperand k) d = scalePort b (expOperand k) d' := by
  obtain ⟨r, hv, rfl | hr⟩ := h
  · rw [scalePort_zero hv, scalePort_zero hv]
  · simp [scalePort, hv, hr]

/-- Settles O19: exec's result word is the unit's port function, and on a determined operation that gives the same under
the two states' draws, the only part of either state it reads. -/
theorem resultDependsOnOperandsOnly : Obligations.ResultDependsOnOperandsOnly := by
  intro i s s' h
  cases i with
  | enc b => exact ⟨_, _, exec_enc s b, exec_enc s' b, congrArg (·.setWidth 64) (encPort_eq_of_determined h _ _)⟩
  | dec v => exact ⟨_, _, exec_dec s v, exec_dec s' v, rfl⟩
  | ilog2 b =>
    exact ⟨_, _, exec_ilog2 s b, exec_ilog2 s' b, congrArg (·.signExtend 64) (ilog2Port_eq_of_determined h _ _)⟩
  | scale b k => exact ⟨_, _, exec_scale s b k, exec_scale s' b k, scalePort_eq_of_determined h _ _⟩

end Sys2Proof.Machine
end

section
/-! PROOFS. Evaluations that draw nothing: two on different units commute, and one done twice is done once
(20_memory.md). Each is the unit's ports driven with values that no state decides, then the answer. -/

namespace Sys2Proof.Machine

-- ## An evaluation cut in two: the unit's ports driven, and the result word

/-- The ports of the operation's unit during its evaluation, the draw being that of index `d`. -/
def State.drive (s : State) (i : Instr) (d : Nat) : State :=
  match i with
  | .enc b => s.driveEnc b (encPort b (Config.any10 d))
  | .dec v => s.driveDec v (decPort v)
  | .ilog2 b => s.driveIlog2 b (ilog2Port b (Config.any12 d))
  | .scale b k => s.driveScale b k (scalePort b (expOperand k) (Config.any64 d))

/-- The result word `Y` of the operation (R42), the draw being that of index `d`. -/
def resultWord (i : Instr) (d : Nat) : BitVec 64 :=
  match i with
  | .enc b => (encPort b (Config.any10 d)).setWidth 64
  | .dec v => decPort v
  | .ilog2 b => (ilog2Port b (Config.any12 d)).signExtend 64
  | .scale b k => scalePort b (expOperand k) (Config.any64 d)

/-- A determined operation drives and answers alike under every draw, so that the index `d` may be any. -/
theorem exec_of_determined {i : Instr} (h : i.Determined) (d : Nat) (s : State) :
    exec i s = .next ((s.drive i d).answer (resultWord i d)) := by
  cases i with
  | enc b => rw [exec_enc, encPort_eq_of_determined h _ (Config.any10 d)]; rfl
  | dec v => rfl
  | ilog2 b => rw [exec_ilog2, ilog2Port_eq_of_determined h _ (Config.any12 d)]; rfl
  | scale b k => rw [exec_scale, scalePort_eq_of_determined h _ (Config.any64 d)]; rfl

-- ## Driving ports commutes with an answer and with another unit's ports, and is idempotent

namespace State

variable (s : State) (i : Instr) (d : Nat)

theorem drive_answer (r : BitVec 64) : (s.answer r).drive i d = (s.drive i d).answer r := by
  cases i <;> rfl

theorem drive_drive_same : (s.drive i d).drive i d = s.drive i d := by
  cases i <;> rfl

theorem answer_answer_same (r : BitVec 64) :
    (s.answer r).answer r = { s.answer r with draws := (s.answer r).draws + 1 } := rfl

/-- No port belongs to two units. -/
theorem drive_comm {i j : Instr} (h : i.mnemonic ≠ j.mnemonic) :
    (s.drive i d).drive j d = (s.drive j d).drive i d := by
  cases i with
  | enc b =>
    cases j with
    | enc _ => exact absurd rfl h
    | _ => rfl
  | dec v =>
    cases j with
    | dec _ => exact absurd rfl h
    | _ => rfl
  | ilog2 b =>
    cases j with
    | ilog2 _ => exact absurd rfl h
    | _ => rfl
  | scale b k =>
    cases j with
    | scale _ _ => exact absurd rfl h
    | _ => rfl

end State

/-- Settles O20: both operations drive and answer as at the index of `s`; the ports driven commute, and only the last
answer's word tells the orders apart. -/
theorem evaluationsOnDifferentUnitsCommute : Obligations.EvaluationsOnDifferentUnitsCommute := by
  intro i j s hi hj hij
  refine ⟨_, _, _, _, exec_of_determined hi s.draws s, exec_of_determined hj s.draws s,
    exec_of_determined hj s.draws _, exec_of_determined hi s.draws _, rfl, rfl, ?_⟩
  rw [State.drive_answer, State.drive_answer, s.drive_comm _ hij]
  rfl

/-- Settles O21: the second evaluation drives the same ports with the same values and answers the same word, so the
second answer's advance of the index is all that is left. -/
theorem secondEvaluationChangesNothing : Obligations.SecondEvaluationChangesNothing := by
  intro i s h
  refine ⟨_, exec_of_determined h s.draws s, ?_⟩
  rw [exec_of_determined h s.draws, State.drive_answer, State.drive_drive_same, State.answer_answer_same]

end Sys2Proof.Machine
end

section
/-! PROOFS. The operation word, its written forms and the values they denote (30_encoding.md). -/

namespace Sys2Proof

-- ## The decoder, one equation for each unit select

theorem uop_cases (u : BitVec 2) : u = 0 ∨ u = 1 ∨ u = 2 ∨ u = 3 := by
  revert u; decide

section decodeWord

variable {w : OpWord}

theorem decodeWord_of_uop_zero (h : uopField w = 0) : decodeWord w = .enc (aField w) := by
  simp [decodeWord, h]

theorem decodeWord_of_uop_one (h : uopField w = 1) : decodeWord w = .dec ((aField w).extractLsb' 0 16) := by
  simp [decodeWord, h]

theorem decodeWord_of_uop_two (h : uopField w = 2) : decodeWord w = .ilog2 (aField w) := by
  simp [decodeWord, h]

theorem decodeWord_of_uop_three (h : uopField w = 3) : decodeWord w = .scale (aField w) (bField w) := by
  simp [decodeWord, h]

end decodeWord

-- ## Encode, then decode

theorem extractLsb'_setWidth_code (code : Code16) : (code.setWidth 64).extractLsb' 0 16 = code := by
  apply BitVec.eq_of_getLsbD_eq
  intro i hi
  simp [hi, show i < 64 by omega]

theorem decodeWord_encodeWord (i : Instr) : decodeWord (encodeWord i) = i := by
  cases i with
  | enc speed => rw [encodeWord, decodeWord_of_uop_zero (uopField_packWord ..), aField_packWord]
  | dec code =>
    rw [encodeWord, decodeWord_of_uop_one (uopField_packWord ..), aField_packWord, extractLsb'_setWidth_code]
  | ilog2 x => rw [encodeWord, decodeWord_of_uop_two (uopField_packWord ..), aField_packWord]
  | scale value exp =>
    rw [encodeWord, decodeWord_of_uop_three (uopField_packWord ..), aField_packWord, bField_packWord]

/-- Settles O1: the eighteen digits lose nothing of the word, and each unit's fields of the packed word are the
operands packed. -/
theorem encodeThenDecodeGivesTheOperation : Obligations.EncodeThenDecodeGivesTheOperation := by
  intro i _
  rw [encodeDigits, decodeDigits_writeWord, decodeWord_encodeWord]

-- ## Decode, then encode

theorem packWord_eq_iff {u : BitVec 2} {b : BitVec 4} {a : BitVec 64} {w : OpWord} :
    packWord u b a = w ↔ u = uopField w ∧ b = bField w ∧ a = aField w := by
  constructor
  · rintro rfl
    simp
  · rintro ⟨rfl, rfl, rfl⟩
    exact packWord_fields w

/-- A word keeps its low sixteen bits exactly when the others are zero. -/
theorem setWidth_extractLsb'_eq_iff (a : BitVec 64) :
    (a.extractLsb' 0 16).setWidth 64 = a ↔ a.extractLsb' 16 48 = 0 := by
  have := a.isLt
  simp only [← BitVec.toNat_inj, BitVec.toNat_setWidth, BitVec.extractLsb'_toNat, Nat.shiftRight_eq_div_pow,
    BitVec.ofNat_eq_ofNat, BitVec.toNat_ofNat]
  omega

theorem canonicalWord_iff (w : OpWord) : canonicalWord w = true ↔
    (uopField w = 3 ∨ bField w = 0) ∧ (uopField w = 1 → (aField w).extractLsb' 16 48 = 0) := by
  have ha : w.extractLsb' 16 48 = (aField w).extractLsb' 16 48 := by
    apply BitVec.eq_of_getLsbD_eq
    intro i hi
    simp [aField]
  simp only [canonicalWord, ha, Bool.and_eq_true, Bool.or_eq_true, beq_iff_eq, bne_iff_ne, ne_eq]
  exact and_congr Iff.rfl imp_iff_not_or.symm

/-- Settles O2: the encoder's word has the decoded word's unit select, so that the two differ at most in the fields the
encoder writes as zero. -/
theorem canonicalWordsAreTheEncodersWords : Obligations.CanonicalWordsAreTheEncodersWords := by
  intro w
  rw [canonicalWord_iff]
  obtain h | h | h | h := uop_cases (uopField w)
  · rw [decodeWord_of_uop_zero h, encodeWord, packWord_eq_iff]
    simp [h, eq_comm]
  · rw [decodeWord_of_uop_one h, encodeWord, packWord_eq_iff, setWidth_extractLsb'_eq_iff]
    simp [h, eq_comm]
  · rw [decodeWord_of_uop_two h, encodeWord, packWord_eq_iff]
    simp [h, eq_comm]
  · rw [decodeWord_of_uop_three h, encodeWord, packWord_eq_iff]
    simp [h]

-- ## The opcode table

/-- The mask of every row: the two bits of the unit select. -/
def uopMask : OpWord := packWord 3 0 0

theorem and_uopMask (w : OpWord) : w &&& uopMask = packWord (uopField w) 0 0 := by
  apply BitVec.eq_of_getLsbD_eq
  intro i hi
  rw [BitVec.getLsbD_and, uopMask, packWord_bit, packWord_bit, uopField, BitVec.getLsbD_extractLsb']
  by_cases h1 : i < 68
  · simp [h1]
  · have h3 : (3#2).getLsbD (i - 68) = true := by
      obtain rfl | rfl : i = 68 ∨ i = 69 := by omega
      all_goals rfl
    simp [h1, h3, show ¬ i < 64 by omega, show 68 + (i - 68) = i by omega, show i - 68 < 2 by omega]

theorem opcodeTable_mask : ∀ row ∈ opcodeTable, row.mask = uopMask := by decide

theorem opcodeTable_pattern_inj :
    ∀ row ∈ opcodeTable, ∀ other ∈ opcodeTable, other.pattern = row.pattern → other = row := by decide

/-- The operation's row is in the table, with the unit select of its words. -/
theorem exists_row_of_decodeWord (w : OpWord) :
    ∃ row ∈ opcodeTable, row.pattern = packWord (uopField w) 0 0 ∧ row.mnemonic = (decodeWord w).mnemonic := by
  obtain h | h | h | h := uop_cases (uopField w)
  · exact ⟨opcodeTable[0], by decide, by rw [h]; decide, by rw [decodeWord_of_uop_zero h]; rfl⟩
  · exact ⟨opcodeTable[1], by decide, by rw [h]; decide, by rw [decodeWord_of_uop_one h]; rfl⟩
  · exact ⟨opcodeTable[2], by decide, by rw [h]; decide, by rw [decodeWord_of_uop_two h]; rfl⟩
  · exact ⟨opcodeTable[3], by decide, by rw [h]; decide, by rw [decodeWord_of_uop_three h]; rfl⟩

/-- Settles O3: every mask leaves the unit select alone, and no two rows have one pattern. -/
theorem everyWordMatchesExactlyOneRow : Obligations.EveryWordMatchesExactlyOneRow := by
  intro w
  obtain ⟨row, hmem, hpat, hname⟩ := exists_row_of_decodeWord w
  refine ⟨row, hmem, by rw [opcodeTable_mask row hmem, and_uopMask, hpat], hname, fun other hother hmatch => ?_⟩
  rw [opcodeTable_mask other hother, and_uopMask, ← hpat] at hmatch
  exact opcodeTable_pattern_inj row hmem other hother hmatch.symm

-- ## Words written in the spec's programs, and lists of digits

/-- Settles O6: the decoder evaluated on the four words. -/
theorem programWordsDecodeAsWritten : Obligations.ProgramWordsDecodeAsWritten := by
  unfold Obligations.ProgramWordsDecodeAsWritten
  decide

theorem decodeDigits_of_length_ne {ds : List Digit} (h : ds.length ≠ 18) :
    decodeDigits ds = .rejected .notEighteenDigits := by
  simp [decodeDigits, hasEighteenDigits, h]

theorem decodeDigits_of_lead_gt {d : Digit} {ds : List Digit} (hl : (d :: ds).length = 18) (hd : 3 < d.toNat) :
    decodeDigits (d :: ds) = .rejected .leadDigitAboveThree := by
  have h18 : hasEighteenDigits (d :: ds) = true := beq_iff_eq.2 hl
  have hlead : leadDigitInRange (d :: ds) = false := decide_eq_false (Nat.not_le.2 hd)
  simp [decodeDigits, h18, hlead]

theorem uopField_toNat (w : OpWord) : (uopField w).toNat = w.toNat / 2 ^ 68 := by
  have := w.isLt
  rw [uopField, BitVec.extractLsb'_toNat, Nat.shiftRight_eq_div_pow]
  omega

theorem bField_toNat (w : OpWord) : (bField w).toNat = w.toNat / 2 ^ 64 % 16 := by
  rw [bField, BitVec.extractLsb'_toNat, Nat.shiftRight_eq_div_pow]

theorem aField_toNat (w : OpWord) : (aField w).toNat = w.toNat % 2 ^ 64 := by
  rw [aField, BitVec.extractLsb'_toNat, Nat.shiftRight_zero]

/-- The number that eighteen digits write, by the parts of the operation word (R41). -/
theorem natOfDigits_eighteen {d b : Digit} {rest : List Digit} (h : rest.length = 16) :
    natOfDigits (d :: b :: rest) = 2 ^ 68 * d.toNat + 2 ^ 64 * b.toNat + natOfDigits rest ∧
      natOfDigits rest < 2 ^ 64 := by
  have hlt := natOfDigits_lt rest
  rw [natOfDigits_cons, natOfDigits_cons, List.length_cons, h]
  rw [h] at hlt
  omega

/-- Settles O7: the rejections are the decoder's two tests; otherwise the digits are those of a number below `2^70`,
which the word holds whole and whose quotients are its fields. -/
theorem onlyWrittenWordsDecode : Obligations.OnlyWrittenWordsDecode := by
  intro ds
  refine ⟨decodeDigits_of_length_ne, ?_⟩
  rintro hlen d b rest rfl
  refine ⟨decodeDigits_of_lead_gt hlen, fun hd => ?_⟩
  obtain ⟨hnat, hrest⟩ := natOfDigits_eighteen (d := d) (b := b) (rest := rest) (by simpa using hlen)
  have hb := b.isLt
  have hw : (BitVec.ofNat 70 (natOfDigits (d :: b :: rest))).toNat = natOfDigits (d :: b :: rest) :=
    Nat.mod_eq_of_lt (by omega)
  have hwrite : writeWord (BitVec.ofNat 70 (natOfDigits (d :: b :: rest))) = d :: b :: rest := by
    rw [writeWord, hw, ← hlen, digitsOfNat_natOfDigits]
  refine ⟨_, rfl, ?_, hwrite, ?_, BitVec.eq_of_toNat_eq ?_, ?_⟩
  · rw [← decodeDigits_writeWord, hwrite]
  · rw [uopField_toNat, hw]
    omega
  · rw [bField_toNat, hw]
    omega
  · rw [aField_toNat, hw]
    omega

end Sys2Proof

namespace Sys2Proof.Machine

-- ## The unit select at the ports

/-- Settles O4: each unit select's evaluation drives its own unit and answers that unit's output port. -/
theorem unitSelectDrivesItsPorts : Obligations.UnitSelectDrivesItsPorts := by
  intro w s
  obtain h | h | h | h := uop_cases (uopField w)
  · rw [decodeWord_of_uop_zero h]
    exact ⟨_, exec_enc s _, by simp [h]⟩
  · rw [decodeWord_of_uop_one h]
    exact ⟨_, exec_dec s _, by simp [h]⟩
  · rw [decodeWord_of_uop_two h]
    exact ⟨_, exec_ilog2 s _, by simp [h]⟩
  · rw [decodeWord_of_uop_three h]
    exact ⟨_, exec_scale s _ _, by simp [h]⟩

/-- DEC reads ten bits of its port (R40, R72). -/
theorem decPort_congr {v v' : Code16} (h : codeOperand v = codeOperand v') : decPort v = decPort v' := by
  rw [decPort, decPort, h]

theorem codeOperand_extractLsb' (a : BitVec 64) : codeOperand (a.extractLsb' 0 16) = a.extractLsb' 0 10 := by
  apply BitVec.eq_of_getLsbD_eq
  intro i hi
  simp [codeOperand, hi]

/-- Settles O5: outside DEC the two words decode to one operation; for DEC they decode to codes whose ten interpreted
bits agree. -/
theorem ignoredFieldsDoNotAffectTheResult : Obligations.IgnoredFieldsDoNotAffectTheResult := by
  intro w w' s huop hA hDec hScale
  obtain h | h | h | h := uop_cases (uopField w)
  · rw [decodeWord_of_uop_zero h, decodeWord_of_uop_zero (huop ▸ h), hA (.inl h)]
    exact ⟨_, _, exec_enc s _, exec_enc s _, rfl⟩
  · rw [decodeWord_of_uop_one h, decodeWord_of_uop_one (huop ▸ h)]
    refine ⟨_, _, exec_dec s _, exec_dec s _, decPort_congr ?_⟩
    rw [codeOperand_extractLsb', codeOperand_extractLsb', hDec h]
  · rw [decodeWord_of_uop_two h, decodeWord_of_uop_two (huop ▸ h), hA (.inr h)]
    exact ⟨_, _, exec_ilog2 s _, exec_ilog2 s _, rfl⟩
  · obtain rfl := hScale h
    rw [decodeWord_of_uop_three h]
    exact ⟨_, _, exec_scale s _ _, exec_scale s _ _, rfl⟩

theorem resultIsAnOutput_of_exec {i : Instr} {s t : State} (h : exec i s = .next t) : t.ResultIsAnOutput := by
  cases i with
  | enc b =>
    rw [exec_enc] at h
    cases h
    exact .inl rfl
  | dec v =>
    rw [exec_dec] at h
    cases h
    exact .inr (.inl rfl)
  | ilog2 b =>
    rw [exec_ilog2] at h
    cases h
    exact .inr (.inr (.inl rfl))
  | scale b k =>
    rw [exec_scale] at h
    cases h
    exact .inr (.inr (.inr rfl))

/-- Settles O17: a step with nothing pending keeps the state, and any other answers its unit's output port, whatever
stood in `y` before. -/
theorem stepKeepsResultAnOutput : Obligations.StepKeepsResultAnOutput := by
  intro s t h hstep
  obtain ⟨-, rfl⟩ | ⟨_, _, -, he⟩ := step_next_cases s hstep
  · exact h
  · exact resultIsAnOutput_of_exec he

/-- What the opcode table's bits decode to is what their word decodes to. -/
theorem eq_decodeWord_of_decodeTableWord {nbits w : Nat} {i : Instr} (h : decodeTableWord nbits w = some i) :
    i = decodeWord (tableWord nbits w) := by
  unfold decodeTableWord at h
  split at h
  case isFalse => cases h
  case isTrue hbits =>
    have hv : tableBits nbits w < 2 ^ 72 :=
      (Nat.mod_lt _ (by positivity)).trans_le (Nat.pow_le_pow_right (by decide) hbits)
    rw [decodeDigits_digitsOfNat hv] at h
    split_ifs at h
    exact (Option.some.inj h).symm

/-- Settles O13: the step takes the word placed at the head, and the table's bits decode as that word does. -/
theorem placedWordIsEvaluatedNext : Obligations.PlacedWordIsEvaluatedNext := by
  intro s nbits w i h
  rw [eq_decodeWord_of_decodeTableWord h]
  exact step_of_cons (s.present_pending _)

-- ## Codes and software integers

/-- Settles O9: the assembled code is `128e + m`, of which the fields are quotient and remainder by 128. -/
theorem assembledFieldsReadBackWithCarry : Obligations.AssembledFieldsReadBackWithCarry := by
  intro e m he
  have hcode : assembleCode e m = ((128 * e + m : Nat) : Int) := by
    rw [assembleCode, Config.mantW]
    push_cast
    ring
  rw [hcode, Int.toNat_natCast, exponentField_eq, mantissaField_eq]
  refine ⟨fun hm => ⟨by push_cast; ring, ?_, ?_⟩, fun hm he' => ⟨?_, ?_⟩⟩
  all_goals omega

/-- Settles O59: DEC reads a software integer's residue modulo 1024. -/
theorem softwareIntegersAreReadModulo1024 : Obligations.SoftwareIntegersAreReadModulo1024 := by
  refine ⟨fun n s => ⟨_, exec_dec s _, ?_⟩, decPort_congr (by decide)⟩
  rw [← codeOperand_softwareCode, Int.toNat_natCast]
  rfl

-- ## Patterns and the reals they denote

theorem val_packReal_zero (neg : Bool) : val (packReal neg 0 0) = .real 0 := by
  cases neg <;> decide +kernel

/-- Only a pattern with exponent and fraction fields zero denotes zero (R38). -/
theorem fields_of_val_zero {b : Real64} (h : val b = .real 0) : expField b = 0 ∧ fracField b = 0 := by
  rw [val_of_finite (expField_of_val h), PortReal.real.injEq, withSign_eq_zero] at h
  split_ifs at h with he
  · rw [mul_eq_zero_iff_right (zpow_ne_zero _ two_ne_zero), Nat.cast_eq_zero] at h
    exact ⟨he, h⟩
  · have : (0 : ℚ) < (2 ^ 52 + (fracField b : ℚ)) * (2 : ℚ) ^ ((expField b : Int) - 1075) := by positivity
    exact absurd h this.ne'

theorem val_eq_zero_iff (b : Real64) : val b = .real 0 ↔ ∃ neg, b = packReal neg 0 0 := by
  constructor
  · intro h
    obtain ⟨he, ht⟩ := fields_of_val_zero h
    exact ⟨signField b, eq_of_fields (by simp) (by simp [he]) (by simp [ht])⟩
  · rintro ⟨neg, rfl⟩
    exact val_packReal_zero neg

/-- Settles O56: `bits64` gives back the one pattern of a non-zero real, and the patterns of zero are the two signs. -/
theorem patternsDenoteDistinctReals : Obligations.PatternsDenoteDistinctReals := by
  refine ⟨fun b b' r hr h h' => by rw [← bits64_of_val h hr, bits64_of_val h' hr], fun b => ?_⟩
  rw [val_eq_zero_iff, Bool.exists_bool]
  rfl

-- ## Written operations

theorem assemble_isSome (p : Written) : (assemble p).isSome = p.wellFormed := by
  cases h : p.wellFormed <;> simp [assemble, h]

theorem eq_of_assemble {p : Written} {i j : Instr} (hj : assemble p = if p.wellFormed then some j else none)
    (h : assemble p = some i) : i = j := by
  have hwf := wellFormed_of_assemble h
  rw [hj, if_pos hwf, Option.some.injEq] at h
  exact h.symm

theorem assemble_enc_eq_some {x : RealOperand} {i : Instr} (h : assemble (.enc x) = some i) :
    i = .enc (realOperand x) ∧ x.Denotes (realOperand x) :=
  ⟨eq_of_assemble rfl h, realOperand_denotes (wellFormed_of_assemble h)⟩

theorem assemble_ilog2_eq_some {x : RealOperand} {i : Instr} (h : assemble (.ilog2 x) = some i) :
    i = .ilog2 (realOperand x) ∧ x.Denotes (realOperand x) :=
  ⟨eq_of_assemble rfl h, realOperand_denotes (wellFormed_of_assemble h)⟩

theorem assemble_scale_eq_some {x : RealOperand} {k : Int} {i : Instr} (h : assemble (.scale x k) = some i) :
    i = .scale (realOperand x) (BitVec.ofInt 4 k) ∧ x.Denotes (realOperand x) ∧
      expOperand (BitVec.ofInt 4 k) = k := by
  have hwf := wellFormed_of_assemble h
  simp only [Written.wellFormed, Bool.and_eq_true, decide_eq_true_eq] at hwf
  obtain ⟨⟨hreal, hlow⟩, hhigh⟩ := hwf
  exact ⟨eq_of_assemble rfl h, realOperand_denotes hreal, expOperand_ofInt hlow hhigh⟩

theorem assemble_dec (n : Int) : assemble (.dec n) = some (.dec (softwareCode n)) := rfl

/-- The first word of a written operation's line (R45). -/
def writtenMnemonic : Written → String
  | .enc _ => "ENC"
  | .dec _ => "DEC"
  | .ilog2 _ => "ILOG2"
  | .scale _ _ => "SCALE"

theorem mnemonic_of_assemble {p : Written} {i : Instr} (h : assemble p = some i) :
    i.mnemonic = writtenMnemonic p := by
  cases p with
  | enc x => rw [(assemble_enc_eq_some h).1]; rfl
  | dec n => rw [assemble_dec] at h; cases h; rfl
  | ilog2 x => rw [(assemble_ilog2_eq_some h).1]; rfl
  | scale x k => rw [(assemble_scale_eq_some h).1]; rfl

theorem firstWord_of_readLine {line : List Char} {p : Written} (h : readLine line = some p) :
    (lineWords [] (beforeArrow (line.takeWhile (· ≠ ';')))).head? = some (writtenMnemonic p).toList := by
  unfold readLine at h
  split at h
  case h_1 x hwords =>
    obtain ⟨_, -, rfl⟩ := Option.map_eq_some_iff.1 h
    rw [hwords]
    simp [writtenMnemonic]
  case h_2 c hwords =>
    obtain ⟨_, -, rfl⟩ := Option.map_eq_some_iff.1 h
    rw [hwords]
    simp [writtenMnemonic]
  case h_3 x hwords =>
    obtain ⟨_, -, rfl⟩ := Option.map_eq_some_iff.1 h
    rw [hwords]
    simp [writtenMnemonic]
  case h_4 v k hwords =>
    split at h
    · cases h
      rw [hwords]
      simp [writtenMnemonic]
    · cases h
  case h_5 => cases h

theorem firstWord_of_assembleLine {line : List Char} {i : Instr} (h : assembleLine line = some i) :
    (lineWords [] (beforeArrow (line.takeWhile (· ≠ ';')))).head? = some i.mnemonic.toList := by
  obtain ⟨p, hread, hasm⟩ := Option.bind_eq_some_iff.1 h
  rw [firstWord_of_readLine hread, mnemonic_of_assemble hasm]

/-- Settles O10: each form of written operation inverted, and a line's first word chooses the form. -/
theorem writtenOperationsKeepTheirValues : Obligations.WrittenOperationsKeepTheirValues := by
  refine ⟨assemble_isSome, fun x i h => ⟨_, assemble_enc_eq_some h⟩, fun x i h => ⟨_, assemble_ilog2_eq_some h⟩,
    fun x k i h => ⟨_, _, assemble_scale_eq_some h⟩, fun n i h => ?_, fun line i => firstWord_of_assembleLine⟩
  rw [assemble_dec] at h
  cases h
  exact ⟨_, rfl, codeOperand_softwareCode n⟩

/-- Settles O8: reader and assembler evaluated on the lines. -/
theorem programLinesAssembleToTheirWords : Obligations.ProgramLinesAssembleToTheirWords := by
  unfold Obligations.ProgramLinesAssembleToTheirWords
  decide +kernel

end Sys2Proof.Machine
end

section
/-! PROOFS. Rounding, and with it the smallest speeds and the ties of ENC; the reals DEC gives, as integers below 256
scaled by a power of two (40_numerics.md). -/

namespace Sys2Proof.Machine

-- ## Rounding half away from zero

theorem rhaz_of_neg {x : ℚ} (h : x < 0) : rhaz x = -⌊-x + 1 / 2⌋ := by
  simp [rhaz, not_le.2 h, Rat.floor_def, Int.floor, FloorRing.floor]

/-- On the non-negative reals the rule is Mathlib's `round`, which takes ties up. -/
theorem rhaz_eq_round {x : ℚ} (h : 0 ≤ x) : rhaz x = round x := by
  rw [rhaz_of_nonneg h, round_eq]

theorem rhaz_eq_neg_rhaz_neg {x : ℚ} (h : x < 0) : rhaz x = -rhaz (-x) := by
  rw [rhaz_of_neg h, rhaz_of_nonneg (neg_nonneg.2 h.le)]

/-- No integer is nearer to `x` than `r` is, and none equally near is farther from zero (R49). -/
def IsNearestAwayFromZero (x : ℚ) (r : Int) : Prop :=
  ∀ n : Int, |(r : ℚ) - x| ≤ |(n : ℚ) - x| ∧ (|(r : ℚ) - x| = |(n : ℚ) - x| → |(n : ℚ)| ≤ |(r : ℚ)|)

theorem IsNearestAwayFromZero.neg {x : ℚ} {r : Int} (h : IsNearestAwayFromZero x r) :
    IsNearestAwayFromZero (-x) (-r) := by
  have hdist : ∀ m : Int, |(m : ℚ) - -x| = |((-m : Int) : ℚ) - x| := fun m => by
    rw [← abs_neg]
    push_cast
    ring_nf
  intro n
  rw [hdist, hdist, neg_neg]
  simpa using h (-n)

/-- A tie's other integer is `x` reflected, `2x - rhaz x`, which lies between `-rhaz x` and `rhaz x`. -/
theorem abs_le_abs_rhaz_of_tie {x : ℚ} (h : 0 ≤ x) {n : Int} (htie : |(rhaz x : ℚ) - x| = |(n : ℚ) - x|) :
    |(n : ℚ)| ≤ |(rhaz x : ℚ)| := by
  obtain heq | hreflected := abs_eq_abs.1 htie
  · rw [sub_left_inj.1 heq]
  · obtain ⟨-, hupper⟩ := rhaz_bounds h
    have hlt : n < rhaz x + 1 := by
      have : (n : ℚ) < (rhaz x : ℚ) + 1 := by linarith
      exact_mod_cast this
    have hle : (n : ℚ) ≤ (rhaz x : ℚ) := by exact_mod_cast Int.lt_add_one_iff.1 hlt
    exact (abs_le.2 ⟨by linarith, hle⟩).trans (le_abs_self _)

theorem rhaz_isNearestAwayFromZero_of_nonneg {x : ℚ} (h : 0 ≤ x) : IsNearestAwayFromZero x (rhaz x) := by
  refine fun n => ⟨?_, abs_le_abs_rhaz_of_tie h⟩
  rw [rhaz_eq_round h, abs_sub_comm, abs_sub_comm (n : ℚ)]
  exact round_le x n

theorem rhaz_isNearestAwayFromZero (x : ℚ) : IsNearestAwayFromZero x (rhaz x) := by
  obtain h | h := le_or_gt 0 x
  · exact rhaz_isNearestAwayFromZero_of_nonneg h
  · have hneg := (rhaz_isNearestAwayFromZero_of_nonneg (neg_nonneg.2 h.le)).neg
    rwa [neg_neg, ← rhaz_eq_neg_rhaz_neg h] at hneg

/-- Settles O46: the definition's two arms, the nearest-integer property by reflection from the non-negative reals, and
the rule evaluated on its examples. -/
theorem roundingIsHalfAwayFromZero : Obligations.RoundingIsHalfAwayFromZero :=
  ⟨fun _ => rhaz_of_nonneg, fun _ => rhaz_of_neg, rhaz_isNearestAwayFromZero, by decide +kernel⟩

-- ## ENC: the smallest speeds, and the ties

/-- Settles O27: on the linear branch such a speed is scaled to below 1/2, which rounds to 0. -/
theorem encTinySpeedsGiveZero : Obligations.EncTinySpeedsGiveZero := by
  intro b speed s hval hpos hlt
  have hlin : encReal speed = rhaz (speed * 64) := encReal_linear hpos (by linarith)
  have hround : rhaz (speed * 64) = 0 :=
    (rhaz_eq_iff (by linarith) 0).2 (by constructor <;> push_cast <;> linarith)
  refine ⟨hlin, _, exec_enc s b, ?_⟩
  simp [encPort_real hval, hlin, hround]

/-- Settles O30: ENC evaluated on the five ties. -/
theorem encTiesGoAwayFromZero : Obligations.EncTiesGoAwayFromZero := by
  unfold Obligations.EncTiesGoAwayFromZero
  decide +kernel

-- ## DEC: its reals, and their patterns

/-- Both arms of DEC give an integer below 256 times `2^k`: the mantissa and `2^-6` in bucket 0, the mantissa with the
window and `2^(e-7)` in bucket `e` (R71, R74, R75). -/
theorem decReal_eq_natCast_mul_zpow (c : Nat) : ∃ (m : Nat) (k : Int),
    decReal c = (m : ℚ) * (2 : ℚ) ^ k ∧ m ≤ 255 ∧ -6 ≤ k ∧ k ≤ 0 := by
  rw [decReal_eq]
  split
  · refine ⟨c % 128, -6, ?_, by omega, le_rfl, by decide⟩
    rw [zpow_neg, div_eq_mul_inv]
    norm_num
  · exact ⟨c % 128 + 128, ((c / 128 % 8 : Nat) : Int) - 7, by push_cast; rfl, by omega, by omega, by omega⟩

/-- The pattern of a positive integer of at most 53 bits times a power of two: `p` is the position of its highest set
bit, the rest of its bits are the fraction (R38). -/
theorem val_packReal_natCast_mul_zpow {m p : Nat} {k : Int} (hlow : 2 ^ p ≤ m) (hhigh : m < 2 ^ (p + 1)) (hp : p ≤ 52)
    (hmin : 1 ≤ p + k + 1023) (hmax : p + k + 1023 ≤ 2046) :
    val (packReal false (p + k + 1023).toNat ((m - 2 ^ p) * 2 ^ (52 - p))) = .real ((m : ℚ) * (2 : ℚ) ^ k) := by
  have hsplit : 2 ^ p * 2 ^ (52 - p) = 2 ^ 52 := by rw [← pow_add, Nat.add_sub_cancel' hp]
  have hfrac : (m - 2 ^ p) * 2 ^ (52 - p) < 2 ^ 52 := by
    rw [← hsplit]
    exact Nat.mul_lt_mul_of_pos_right (by rw [pow_succ] at hhigh; omega) (by positivity)
  have hsignificand : (2 : ℚ) ^ 52 + (((m - 2 ^ p) * 2 ^ (52 - p) : Nat) : ℚ) = m * 2 ^ ((52 - p : Nat) : Int) := by
    rw [zpow_natCast]
    have : 2 ^ 52 + (m - 2 ^ p) * 2 ^ (52 - p) = m * 2 ^ (52 - p) := by
      rw [← hsplit, ← add_mul, Nat.add_sub_cancel' hlow]
    exact_mod_cast this
  rw [val_packReal_normal (by omega) (by omega) hfrac, hsignificand, mul_assoc, ← zpow_add₀ two_ne_zero,
    show ((52 - p : Nat) : Int) + (((p + k + 1023).toNat : Nat) - 1075) = k by omega]
  rfl

/-- DEC's pattern: `+0.0`, or one with sign 0 and a normal exponent field that denotes DEC's value. -/
theorem bits64_decReal (c : Nat) : (decReal c = 0 ∧ bits64 (decReal c) = 0) ∨
    1 / 64 ≤ decReal c ∧ ∃ e t : Nat, 1 ≤ e ∧ e ≤ 2046 ∧ bits64 (decReal c) = packReal false e t ∧
      val (packReal false e t) = .real (decReal c) := by
  obtain ⟨m, k, hdec, hm, hk, hk'⟩ := decReal_eq_natCast_mul_zpow c
  rw [hdec]
  obtain rfl | hpos := m.eq_zero_or_pos
  · rw [Nat.cast_zero, zero_mul]
    exact .inl ⟨rfl, bits64_zero⟩
  · have hlog : m.log2 < 8 := (Nat.log2_lt hpos.ne').2 (by omega)
    have hval := val_packReal_natCast_mul_zpow (k := k) (Nat.log2_self_le hpos.ne') Nat.lt_log2_self (by omega)
      (by omega) (by omega)
    have hmin : (1 : ℚ) / 64 ≤ m * 2 ^ k := by
      have hone : (1 : ℚ) ≤ m := by exact_mod_cast hpos
      calc (1 : ℚ) / 64 = 1 * 2 ^ (-6 : Int) := by norm_num [zpow_neg]
        _ ≤ m * 2 ^ k := by gcongr; norm_num
    exact .inr ⟨hmin, _, _, by omega, by omega, bits64_of_val hval (by linarith), hval⟩

theorem decReal_le (c : Nat) : decReal c ≤ 255 := by
  obtain ⟨m, k, hdec, hm, -, hk⟩ := decReal_eq_natCast_mul_zpow c
  have hm' : (m : ℚ) ≤ 255 := by exact_mod_cast hm
  calc decReal c = m * 2 ^ k := hdec
    _ ≤ 255 * 1 := mul_le_mul hm' (zpow_le_one_of_nonpos₀ one_le_two hk) (by positivity) (by norm_num)
    _ = 255 := mul_one _

/-- Settles O37: the two kinds of pattern DEC gives, with the bounds of its values. -/
theorem decResultsAreOrdinary : Obligations.DecResultsAreOrdinary := by
  intro v s
  refine ⟨_, decReal (codeOperand v).toNat, exec_dec s v, ?_⟩
  simp only [State.answer_decSpeed, State.driveDec_decSpeed, decPort]
  have hle := decReal_le (codeOperand v).toNat
  obtain ⟨hzero, hbits⟩ | ⟨hmin, e, t, he, he', hbits, hval⟩ := bits64_decReal (codeOperand v).toNat
  · rw [hbits, hzero]
    exact ⟨val_zero, le_rfl, by norm_num, .inl rfl, rfl, .inl rfl⟩
  · rw [hbits, signField_packReal, expField_packReal, Nat.mod_eq_of_lt (by omega)]
    exact ⟨hval, by linarith, hle, .inr hmin, rfl, .inr ⟨he, he'⟩⟩

end Sys2Proof.Machine
end

section
/-! PROOFS. ENC: its port, its two branches, the carry, and ENC on the bits of a pattern (41_encode.md). -/

namespace Sys2Proof.Machine

-- ## The port

theorem encPort_nan {b : Real64} (h : val b = .nan) (d : BitVec 10) : encPort b d = (0#6) ++ d := by
  simp [encPort, h]

theorem encPort_negInf {b : Real64} (h : val b = .inf true) (d : BitVec 10) : encPort b d = 0 := by
  simp [encPort, h]

theorem encPort_posInf {b : Real64} (h : val b = .inf false) (d : BitVec 10) : encPort b d = 1023 := by
  simp [encPort, h]

/-- Settles O22: `exec`'s equation, and the port function on each class of pattern. -/
theorem encEvaluatesItsPort : Obligations.EncEvaluatesItsPort :=
  fun b s => ⟨_, exec_enc s b, (encPort_nan · _), (encPort_negInf · _), (encPort_posInf · _),
    fun _ h => encPort_real h _⟩

/-- ENC's evaluation of a pattern that denotes a real: the code on its port and, extended, in `Y`. -/
theorem exists_exec_enc_of_real {b : Real64} {x : ℚ} (h : val b = .real x) (s : State) :
    ∃ t, exec (.enc b) s = .next t ∧ t.encCode = BitVec.ofInt 16 (encReal x) ∧ t.y = t.encCode.setWidth 64 :=
  ⟨_, exec_enc s b, encPort_real h _, rfl⟩

/-- Settles O23: the low clamp, and the pattern `-0.0` evaluated. -/
theorem encLowClampGivesZero : Obligations.EncLowClampGivesZero := by
  refine ⟨fun b speed s hval hle => ?_, val_packReal_zero true⟩
  obtain ⟨t, hexec, hcode, -⟩ := exists_exec_enc_of_real hval s
  exact ⟨t, hexec, by rw [hcode, encReal_low hle]; rfl⟩

-- ## The linear branch

theorem rhaz_le_natCast {x : ℚ} {n : Nat} (h : 0 ≤ x) (hn : x ≤ n) : rhaz x ≤ n :=
  (rhaz_mono h hn).trans_eq (rhaz_natCast n)

theorem setWidth_ofNat_code {n : Nat} (h : n < 2 ^ 16) : (BitVec.ofNat 16 n).setWidth 64 = BitVec.ofNat 64 n :=
  BitVec.eq_of_toNat_eq (by simp; omega)

/-- Settles O24: the code is the rounded product, at most the 128 that the product 128 gives; the interval is the
rounding's, divided by 64. -/
theorem encLinearBranchIsNearestSixtyFourth : Obligations.EncLinearBranchIsNearestSixtyFourth := by
  intro b speed s hval hpos hle
  have h0 : 0 ≤ speed * 64 := by linarith
  have h128 : rhaz (speed * 64) ≤ 128 := rhaz_le_natCast (n := 128) h0 (by push_cast; linarith)
  obtain ⟨n, hn⟩ := Int.eq_ofNat_of_zero_le (rhaz_nonneg h0)
  obtain ⟨hlow, hhigh⟩ := (rhaz_eq_iff h0 n).1 hn
  obtain ⟨t, hexec, hcode, hy⟩ := exists_exec_enc_of_real hval s
  rw [encReal_linear hpos hle, hn, BitVec.ofInt_natCast] at hcode
  rw [hcode, setWidth_ofNat_code (by omega)] at hy
  push_cast at hlow hhigh
  refine ⟨by linarith, by linarith, t, n, hexec, hcode, hy, hn.symm, by omega, ?_, ?_⟩
  all_goals linarith

-- ## The exponent branch, by its exponent, its window and its mantissa

/-- Step 4 of ENC (R63), on the clamped speed. -/
def encExponent (x : ℚ) : Int := ilog2Real (min x 255)

/-- The scaled speed of step 5 of ENC (R64). -/
def encWindow (x : ℚ) : ℚ := scaleReal (min x 255) (7 - encExponent x)

/-- The mantissa of step 5 of ENC (R64), before a carry. -/
def encMantissa (x : ℚ) : Int := rhaz (encWindow x - 128)

theorem encWindow_eq (x : ℚ) : encWindow x = min x 255 * (2 : ℚ) ^ (7 - encExponent x) := scaleReal_eq _ _

/-- Rounding commutes with an integer shift that stays within the non-negative reals. -/
theorem rhaz_sub_intCast {x : ℚ} {n : Int} (hn : 0 ≤ n) (h : (n : ℚ) ≤ x) : rhaz (x - n) = rhaz x - n := by
  have hn' : (0 : ℚ) ≤ n := by exact_mod_cast hn
  rw [rhaz_eq_round (sub_nonneg.2 h), rhaz_eq_round (hn'.trans h), round_sub_intCast]

section ExponentBranch

variable {x : ℚ} (hx : 2 < x)

include hx

theorem encExponent_eq_iff (e : Int) : encExponent x = e ↔ (2 : ℚ) ^ e ≤ min x 255 ∧ min x 255 < (2 : ℚ) ^ (e + 1) :=
  ilog2Real_eq_iff (lt_min (by linarith) (by norm_num)) e

theorem encExponent_mem : 1 ≤ encExponent x ∧ encExponent x ≤ 7 := by
  obtain ⟨-, -, hlow, hhigh, -, -⟩ := exponent_branch_bounds hx
  exact ⟨hlow, hhigh⟩

theorem encWindow_mem : 128 ≤ encWindow x ∧ encWindow x < 256 := by
  obtain ⟨-, -, -, -, hlow, hhigh⟩ := exponent_branch_bounds hx
  rw [encWindow_eq]
  exact ⟨hlow, hhigh⟩

theorem encReal_eq_assembleCode : encReal x = assembleCode (encExponent x) (encMantissa x) := by
  rw [encReal_exponent hx, assembleCode, encMantissa, encWindow_eq]
  rfl

theorem encReal_eq_encExponentBranch : encReal x = encExponentBranch x := by
  rw [encReal_eq_assembleCode hx, encExponentBranch, clampHigh_eq_min]
  rfl

theorem encMantissa_nonneg : 0 ≤ encMantissa x :=
  rhaz_nonneg (sub_nonneg.2 (encWindow_mem hx).1)

theorem encMantissa_le : encMantissa x ≤ 128 := by
  obtain ⟨hlow, hhigh⟩ := encWindow_mem hx
  exact rhaz_le_natCast (n := 128) (sub_nonneg.2 hlow) (by push_cast; linarith)

/-- The mantissa is 128 on the top half step of the window. -/
theorem encMantissa_eq_iff_window : encMantissa x = 128 ↔ 511 / 2 ≤ encWindow x := by
  obtain ⟨hlow, hhigh⟩ := encWindow_mem hx
  rw [encMantissa, rhaz_eq_iff (sub_nonneg.2 hlow)]
  constructor
  · rintro ⟨h, -⟩
    push_cast at h
    linarith
  · intro h
    push_cast
    constructor <;> linarith

/-- R65: that half step, scaled back. -/
theorem encMantissa_eq_iff : encMantissa x = 128 ↔
    (2 : ℚ) ^ (encExponent x + 1) - (2 : ℚ) ^ (encExponent x - 8) ≤ min x 255 := by
  have hpos : (0 : ℚ) < (2 : ℚ) ^ (7 - encExponent x) := by positivity
  have hscaled : ((2 : ℚ) ^ (encExponent x + 1) - (2 : ℚ) ^ (encExponent x - 8)) * (2 : ℚ) ^ (7 - encExponent x) =
      511 / 2 := by
    rw [sub_mul, ← zpow_add₀ two_ne_zero, ← zpow_add₀ two_ne_zero]
    ring_nf
    norm_num
  rw [encMantissa_eq_iff_window hx, encWindow_eq, ← hscaled, mul_le_mul_iff_left₀ hpos]

/-- In the last bucket the window is the clamped speed, at most 255, so that nothing carries out of the code. -/
theorem encExponent_le_six_of_carry (h : encMantissa x = 128) : encExponent x ≤ 6 := by
  by_contra hlt
  have h7 : encExponent x = 7 := by
    have := encExponent_mem hx
    omega
  have hwindow := (encMantissa_eq_iff_window hx).1 h
  rw [encWindow_eq, h7, sub_self, zpow_zero, mul_one] at hwindow
  linarith [min_le_right x 255]

/-- R68 (a) above 2: the window's 128 taken out of the rounding. -/
theorem encReal_eq_rhaz_window : encReal x = 128 * (encExponent x - 1) + rhaz (encWindow x) := by
  have h : encMantissa x = rhaz (encWindow x) - 128 :=
    rhaz_sub_intCast (n := 128) (by norm_num) (encWindow_mem hx).1
  rw [encReal_eq_assembleCode hx, assembleCode, h]
  ring

end ExponentBranch

/-- Settles O25: the branch's exponent is the logarithm of the clamped speed. -/
theorem encExponentIsOneToSeven : Obligations.EncExponentIsOneToSeven := by
  intro speed hspeed
  obtain ⟨hlow, hhigh⟩ := encExponent_mem hspeed
  obtain ⟨hle, hlt⟩ := (encExponent_eq_iff hspeed _).1 rfl
  exact ⟨_, rfl, clampHigh_eq_min _, lt_min hspeed (by norm_num), min_le_right _ _, hlow, hhigh, hle, hlt,
    encReal_eq_encExponentBranch hspeed⟩

/-- Settles O31: each branch's value, the linear one with the bias 7 - 1 of its scale 64. -/
theorem encClosedForm : Obligations.EncClosedForm := by
  rintro speed e (⟨hpos, hle, rfl⟩ | ⟨hspeed, hbounds⟩)
  · rw [encReal_linear hpos hle, min_eq_left (by linarith)]
    norm_num
  · obtain rfl := (encExponent_eq_iff hspeed e).2 hbounds
    rw [encReal_eq_rhaz_window hspeed, encWindow_eq]

-- ## The fields of the code, and the carry

theorem assembleCode_eq (e m : Int) : assembleCode e m = 128 * e + m := by
  rw [assembleCode, Config.mantW]
  ring

/-- The fields of a code assembled from integers that ENC computes, by O9. -/
theorem fields_assembleCode {e m : Int} (he : 0 ≤ e) (he' : e ≤ 7) (hm : 0 ≤ m) :
    (m ≤ 127 → (exponentField (assembleCode e m).toNat : Int) = e ∧ (mantissaField (assembleCode e m).toNat : Int) = m) ∧
    (m = 128 → e ≤ 6 →
      (exponentField (assembleCode e m).toNat : Int) = e + 1 ∧ mantissaField (assembleCode e m).toNat = 0) := by
  lift e to Nat using he
  lift m to Nat using hm
  obtain ⟨hplain, hcarry⟩ := assembledFieldsReadBackWithCarry e m (by omega)
  refine ⟨fun h => ?_, fun h h6 => ?_⟩
  · obtain ⟨-, hexp, hmant⟩ := hplain (by omega)
    exact ⟨by rw [hexp], by rw [hmant]⟩
  · obtain ⟨hexp, hmant⟩ := hcarry (by omega) (by omega)
    exact ⟨by rw [hexp]; rfl, hmant⟩

/-- The least speed with exponent `e` whose mantissa is 128 (R65). -/
def carrySpeed (e : Int) : ℚ := (2 : ℚ) ^ (e + 1) - (2 : ℚ) ^ (e - 8)

theorem carrySpeed_mem (e : Int) : (2 : ℚ) ^ e < carrySpeed e ∧ carrySpeed e < (2 : ℚ) ^ (e + 1) := by
  have hlt : (2 : ℚ) ^ (e - 8) < (2 : ℚ) ^ e := zpow_lt_zpow_right₀ one_lt_two (by omega)
  have hpos : (0 : ℚ) < (2 : ℚ) ^ (e - 8) := by positivity
  rw [carrySpeed, zpow_add_one₀ two_ne_zero]
  constructor <;> linarith

section CarrySpeed

variable {e : Int} (he : 1 ≤ e) (he' : e ≤ 6)

include he

theorem two_lt_carrySpeed : 2 < carrySpeed e := by
  have h2 : (2 : ℚ) ^ (1 : Int) ≤ (2 : ℚ) ^ e := zpow_le_zpow_right₀ one_le_two he
  linarith [(carrySpeed_mem e).1, zpow_one (2 : ℚ)]

include he'

theorem min_carrySpeed : min (carrySpeed e) 255 = carrySpeed e := by
  have h7 : (2 : ℚ) ^ (e + 1) ≤ (2 : ℚ) ^ (7 : Int) := zpow_le_zpow_right₀ one_le_two (by omega)
  norm_num at h7
  exact min_eq_left (by linarith [(carrySpeed_mem e).2])

theorem encExponent_carrySpeed : encExponent (carrySpeed e) = e := by
  rw [encExponent_eq_iff (two_lt_carrySpeed he), min_carrySpeed he he']
  exact ⟨(carrySpeed_mem e).1.le, (carrySpeed_mem e).2⟩

theorem encMantissa_carrySpeed : encMantissa (carrySpeed e) = 128 := by
  rw [encMantissa_eq_iff (two_lt_carrySpeed he), encExponent_carrySpeed he he', min_carrySpeed he he', carrySpeed]

theorem encReal_carrySpeed : encReal (carrySpeed e) = 128 * (e + 1) := by
  rw [encReal_eq_assembleCode (two_lt_carrySpeed he), encExponent_carrySpeed he he', encMantissa_carrySpeed he he',
    assembleCode_eq]
  ring

end CarrySpeed

/-- Settles O26: the facts about the exponent branch's parts; the carry of each exponent is at its least speed. -/
theorem encWindowMantissaAndCarry : Obligations.EncWindowMantissaAndCarry := by
  constructor
  · rintro speed _ e hspeed rfl hle hlt
    obtain rfl := (encExponent_eq_iff hspeed e).2 ⟨hle, hlt⟩
    obtain ⟨he, he'⟩ := encExponent_mem hspeed
    obtain ⟨hwindow, hwindow'⟩ := encWindow_mem hspeed
    have hcarry := encExponent_le_six_of_carry hspeed
    obtain ⟨hplain, hcarried⟩ := fields_assembleCode (by omega) he' (encMantissa_nonneg hspeed)
    rw [encReal_eq_assembleCode hspeed]
    exact ⟨encMantissa speed, rfl, by omega, by omega, hwindow, hwindow', encMantissa_nonneg hspeed,
      encMantissa_le hspeed, encMantissa_eq_iff hspeed, hcarry, assembleCode_eq _ _, hplain,
      fun h => hcarried h (hcarry h)⟩
  · intro e he he'
    have hlow : 1 ≤ (e : Int) := by omega
    have hhigh : (e : Int) ≤ 6 := by omega
    have hmant := encMantissa_carrySpeed hlow hhigh
    rw [encMantissa, encWindow, encExponent_carrySpeed hlow hhigh, min_carrySpeed hlow hhigh] at hmant
    have hspeed : (2 : ℚ) ^ (e + 1) - (2 : ℚ) ^ ((e : Int) - 8) = carrySpeed e := by
      rw [carrySpeed]
      norm_cast
    rw [hspeed]
    exact ⟨hmant, encReal_carrySpeed hlow hhigh⟩

-- ## The code fits ten bits, so that the port holds it whole

theorem encReal_mem (x : ℚ) : 0 ≤ encReal x ∧ encReal x ≤ 1023 := by
  obtain hlow | hpos := le_or_gt x 0
  · rw [encReal_low hlow]
    decide
  · obtain hle | hx := le_or_gt x 2
    · have h0 : 0 ≤ x * 64 := by linarith
      have h128 : rhaz (x * 64) ≤ 128 := rhaz_le_natCast (n := 128) h0 (by push_cast; linarith)
      rw [encReal_linear hpos hle]
      exact ⟨rhaz_nonneg h0, by omega⟩
    · have he := encExponent_mem hx
      have hm := encMantissa_nonneg hx
      have hm' := encMantissa_le hx
      have hcarry := encExponent_le_six_of_carry hx
      rw [encReal_eq_assembleCode hx, assembleCode_eq]
      omega

/-- ENC's evaluation, the code on its port read as a number. -/
theorem exists_exec_enc_toNat {b : Real64} {x : ℚ} (h : val b = .real x) (s : State) :
    ∃ t, exec (.enc b) s = .next t ∧ (t.encCode.toNat : Int) = encReal x := by
  obtain ⟨t, hexec, hcode, -⟩ := exists_exec_enc_of_real h s
  have := encReal_mem x
  refine ⟨t, hexec, ?_⟩
  rw [hcode, BitVec.toNat_ofInt]
  omega

-- ## Normal patterns, by their fields

/-- The magnitude of a normal pattern with exponent field `e` and fraction `t` (R38). -/
def normalReal (e t : Nat) : ℚ := (2 ^ 52 + (t : ℚ)) * (2 : ℚ) ^ ((e : Int) - 1075)

theorem val_eq_normalReal {b : Real64} (hs : signField b = false) (he : 1 ≤ expField b) (he' : expField b ≤ 2046) :
    val b = .real (normalReal (expField b) (fracField b)) := by
  have h := val_packReal_normal (s := false) he he' (fracField_lt b)
  rw [← hs, packReal_fields, hs] at h
  exact h

theorem ilog2Real_normalReal {t : Nat} (ht : t < 2 ^ 52) (e : Nat) : ilog2Real (normalReal e t) = (e : Int) - 1023 :=
  ilog2Real_normal ht e

theorem normalReal_mul_zpow {e e' : Nat} {k : Int} (h : (e : Int) + k = e') (t : Nat) :
    normalReal e t * (2 : ℚ) ^ k = normalReal e' t := by
  rw [normalReal, normalReal, mul_assoc, ← zpow_add₀ two_ne_zero, ← h]
  ring_nf

theorem normalReal_lt_of_expField_lt {e e' t : Nat} (ht : t < 2 ^ 52) (h : e < e') (t' : Nat) :
    normalReal e t < normalReal e' t' := by
  have ht' : (t : ℚ) < 2 ^ 52 := by exact_mod_cast ht
  calc normalReal e t < 2 ^ 53 * (2 : ℚ) ^ ((e : Int) - 1075) :=
        mul_lt_mul_of_pos_right (by linarith) (by positivity)
    _ = 2 ^ 52 * (2 : ℚ) ^ ((e : Int) + 1 - 1075) := by
        rw [show (e : Int) + 1 - 1075 = (e - 1075) + 1 by ring, zpow_add_one₀ two_ne_zero]
        ring
    _ ≤ normalReal e' t' := by
        have hpow : (2 : ℚ) ^ ((e : Int) + 1 - 1075) ≤ (2 : ℚ) ^ ((e' : Int) - 1075) :=
          zpow_le_zpow_right₀ one_le_two (by omega)
        exact mul_le_mul (by linarith [Nat.cast_nonneg (α := ℚ) t']) hpow (by positivity) (by positivity)

/-- Normal magnitudes are ordered as their fields are, the exponent first. -/
theorem normalReal_lt_iff {e t e' t' : Nat} (ht : t < 2 ^ 52) (ht' : t' < 2 ^ 52) :
    normalReal e t < normalReal e' t' ↔ e < e' ∨ e = e' ∧ t < t' := by
  obtain h | rfl | h := lt_trichotomy e e'
  · simp [h, normalReal_lt_of_expField_lt ht h t']
  · rw [normalReal, normalReal, mul_lt_mul_iff_left₀ (by positivity)]
    simp
  · simp [h.not_gt, h.ne', (normalReal_lt_of_expField_lt ht' h t).le]

theorem normalReal_two : normalReal 1024 0 = 2 := by
  norm_num [normalReal]

theorem normalReal_255 : normalReal 1030 0xFE00000000000 = 255 := by
  norm_num [normalReal]

/-- A pattern that denotes a real from 1 on is a positive normal one. -/
theorem normal_of_one_le {b : Real64} {x : ℚ} (h : val b = .real x) (hx : 1 ≤ x) :
    signField b = false ∧ 1 ≤ expField b ∧ expField b ≤ 2046 := by
  have hE := expField_of_val h
  have hE' := expField_lt b
  have hnonneg : (0 : ℚ) ≤ fracField b := by positivity
  have hfrac : (fracField b : ℚ) < 2 ^ 52 := by exact_mod_cast fracField_lt b
  rw [val_of_finite hE, PortReal.real.injEq] at h
  have hsign : signField b = false := by
    by_contra hs
    rw [Bool.not_eq_false] at hs
    rw [hs, withSign, if_pos rfl] at h
    have : 0 ≤ -x := by
      rw [← h, neg_neg]
      split <;> positivity
    linarith
  refine ⟨hsign, ?_, by omega⟩
  by_contra he
  rw [hsign, if_pos (by omega), withSign, if_neg Bool.false_ne_true] at h
  have hlt : (fracField b : ℚ) * (2 : ℚ) ^ (-1074 : Int) < 1 := calc
    _ < 2 ^ 52 * (2 : ℚ) ^ (-52 : Int) :=
      mul_lt_mul hfrac (zpow_le_zpow_right₀ one_le_two (by omega)) (by positivity) (by positivity)
    _ = 1 := by norm_num
  exact absurd (h ▸ hx) hlt.not_ge

-- ## ENC on the bits

/-- A binary fraction is rounded by adding its first dropped bit, here the bit below the top seven of a fraction. -/
theorem rhaz_div_two_pow_45 (n : Nat) : rhaz ((n : ℚ) / 2 ^ 45) = ((n / 2 ^ 45 + n / 2 ^ 44 % 2 : Nat) : Int) := by
  have hfloor : (n : ℚ) / 2 ^ 45 + 1 / 2 = ((n + 2 ^ 44 : Nat) : ℚ) / ((2 ^ 45 : Nat) : ℚ) := by
    push_cast
    ring
  rw [rhaz_of_nonneg (by positivity), hfloor, Rat.floor_natCast_div_natCast]
  norm_cast
  omega

/-- The window of a normal speed up to 255 is its significand, 45 bits down. -/
theorem encReal_normalReal {e t : Nat} (ht : t < 2 ^ 52) (h2 : 2 < normalReal e t) (h255 : normalReal e t ≤ 255) :
    encReal (normalReal e t) = 128 * ((e : Int) - 1023) + ((t / 2 ^ 45 + t / 2 ^ 44 % 2 : Nat) : Int) := by
  have hexp : encExponent (normalReal e t) = (e : Int) - 1023 := by
    rw [encExponent, min_eq_left h255, ilog2Real_normalReal ht]
  have hwindow : encWindow (normalReal e t) = ((2 ^ 52 + t : Nat) : ℚ) / 2 ^ 45 := by
    rw [encWindow_eq, hexp, min_eq_left h255, normalReal_mul_zpow (e' := 1030) (by push_cast; ring), normalReal]
    norm_num
    ring
  rw [encReal_eq_rhaz_window h2, hexp, hwindow, rhaz_div_two_pow_45]
  omega

/-- Above 255 the branch encodes 255. -/
theorem encReal_of_255_le {x : ℚ} (h : 255 ≤ x) : encReal x = 1023 := by
  have hx : 2 < x := by linarith
  have hexp : encExponent x = 7 := (encExponent_eq_iff hx 7).2 (by rw [min_eq_right h]; norm_num)
  have hround : rhaz 255 = 255 := rhaz_natCast 255
  rw [encReal_eq_rhaz_window hx, encWindow_eq, hexp, min_eq_right h, sub_self, zpow_zero, mul_one, hround]
  norm_num

/-- Settles O32: 2 and 255 are normal magnitudes themselves, so that the fields tell on which side of them the pattern
lies. -/
theorem encIsABitLevelDatapath : Obligations.EncIsABitLevelDatapath := by
  intro b s hsign
  have ht := fracField_lt b
  have hE := expField_lt b
  constructor
  · intro he he' hne hfrac
    have hval := val_eq_normalReal hsign (by omega) (by omega)
    have h2 : 2 < normalReal (expField b) (fracField b) := by
      rw [← normalReal_two, normalReal_lt_iff (by norm_num) ht]
      omega
    have h255 : normalReal (expField b) (fracField b) ≤ 255 := by
      rw [← normalReal_255, ← not_lt, normalReal_lt_iff (by norm_num) ht]
      omega
    obtain ⟨t, hexec, hcode⟩ := exists_exec_enc_toNat hval s
    rw [encReal_normalReal ht h2 h255] at hcode
    exact ⟨⟨_, hval, h2, h255⟩, t, hexec, by omega⟩
  · intro hne he
    have hval := val_eq_normalReal hsign (by omega) (by omega)
    have h255 : 255 < normalReal (expField b) (fracField b) := by
      rw [← normalReal_255, normalReal_lt_iff (by norm_num) ht]
      omega
    obtain ⟨t, hexec, hcode, -⟩ := exists_exec_enc_of_real hval s
    rw [encReal_of_255_le h255.le] at hcode
    exact ⟨⟨_, hval, h255⟩, t, hexec, hcode⟩

-- ## ENC from its helper units

/-- ILOG2's evaluation of a pattern in `(2, 255]`, its port read as an integer. -/
theorem exists_exec_ilog2_clamped {c : Real64} {x : ℚ} (hx : 2 < x) (h : val c = .real (min x 255)) (s : State) :
    ∃ l, exec (.ilog2 c) s = .next l ∧ l.lgY.toInt = encExponent x := by
  have hpos : 0 < min x 255 := lt_min (by linarith) (by norm_num)
  obtain ⟨he, he'⟩ := encExponent_mem hx
  refine ⟨_, exec_ilog2 s c, ?_⟩
  rw [State.answer_lgY, State.driveIlog2_lgY, ilog2Port_real h hpos, ← encExponent, BitVec.toInt_ofInt, Int.bmod]
  omega

/-- The window has a pattern: that of the clamped speed, its exponent field 1030 (R91). -/
theorem val_encWindow {c : Real64} {x : ℚ} (hx : 2 < x) (h : val c = .real (min x 255)) :
    val (packReal false 1030 (fracField c)) = .real (encWindow x) := by
  have h1 : 1 ≤ min x 255 := le_min (by linarith) (by norm_num)
  have ht := fracField_lt c
  obtain ⟨hsign, he, he'⟩ := normal_of_one_le h h1
  have hmin : min x 255 = normalReal (expField c) (fracField c) := by
    rw [val_eq_normalReal hsign he he', PortReal.real.injEq] at h
    exact h.symm
  have hwindow : encWindow x = normalReal 1030 (fracField c) := by
    rw [encWindow_eq, encExponent, hmin, ilog2Real_normalReal ht]
    exact normalReal_mul_zpow (by push_cast; ring) _
  rw [hwindow]
  exact val_packReal_normal (by norm_num) (by norm_num) ht

/-- Settles O57: ILOG2 gives the exponent, SCALE the window, whose pattern there is, and ENC is assembled from them. -/
theorem encIsBuiltFromItsHelperUnits : Obligations.EncIsBuiltFromItsHelperUnits := by
  intro b c speed s hb hspeed hc
  obtain ⟨he, he'⟩ := encExponent_mem hspeed
  obtain ⟨l, hlog, hlg⟩ := exists_exec_ilog2_clamped hspeed hc s
  have hk : expOperand (BitVec.ofInt 4 (7 - encExponent speed)) = 7 - encExponent speed :=
    expOperand_ofInt (by omega) (by omega)
  have hclamped : min speed 255 ≠ 0 := (lt_min (by linarith) (by norm_num : (0 : ℚ) < 255)).ne'
  have hwindow := val_encWindow hspeed hc
  have hscale := scalePort_real hc hclamped (encWindow_eq speed ▸ hwindow) (Config.any64 l.draws)
  obtain ⟨t, hexec, hcode⟩ := exists_exec_enc_toNat hb _
  refine ⟨l, _, _, encWindow speed, t, hlog, by rw [hlg]; exact hk, exec_scale l c _, ?_, hexec, ?_⟩
  · rw [State.answer_scY, State.driveScale_scY, hk, hscale]
    exact hwindow
  · rw [hcode, hlg, encReal_eq_assembleCode hspeed, encMantissa]

end Sys2Proof.Machine
end

section
/-! PROOFS. DEC: its port, the low ten bits, its value and pattern by the fields of the code, and DEC as an evaluation
of SCALE (42_decode.md). -/

namespace Sys2Proof.Machine

-- ## The port, and the bits it reads

/-- Settles O33: `exec`'s equation, the updates of the record written out. -/
theorem decEvaluatesItsPort : Obligations.DecEvaluatesItsPort := fun v s => exec_dec s v

/-- DEC's evaluation, the value of its low ten bits on its port. -/
theorem exists_exec_dec (v : Code16) (s : State) :
    ∃ t, exec (.dec v) s = .next t ∧ t.decSpeed = bits64 (decReal (v.extractLsb' 0 10).toNat) :=
  ⟨_, exec_dec s v, rfl⟩

/-- Both fields of a code lie in its low ten bits (R72). -/
theorem decReal_mod_1024 (c : Nat) : decReal (c % 1024) = decReal c := by
  have hexp : c % 1024 / 128 % 8 = c / 128 % 8 := by omega
  have hmant : c % 1024 % 128 = c % 128 := by omega
  rw [decReal_eq, decReal_eq c, hexp, hmant]

/-- Settles O34: the fields lie in the low ten bits, and the port reads no others. -/
theorem decReadsOnlyTheLowTenBits : Obligations.DecReadsOnlyTheLowTenBits :=
  ⟨fun c => (decReal_mod_1024 c).symm,
    fun v v' s h => ⟨_, _, exec_dec s v, exec_dec s v', decPort_congr h⟩⟩

-- ## The value, by the fields

theorem decReal_zero : decReal 0 = 0 := rfl

theorem decReal_of_exponent_zero {m : Nat} (hm : m ≤ 127) : decReal m = (m : ℚ) / 64 := by
  rw [decReal_eq, if_pos (by omega), Nat.mod_eq_of_lt (by omega)]

/-- Bucket 0 as the scaling it is (R71). -/
theorem decReal_of_exponent_zero_eq_mul_zpow {m : Nat} (hm : m ≤ 127) :
    decReal m = (m : ℚ) * (2 : ℚ) ^ (-6 : Int) := by
  rw [decReal_of_exponent_zero hm, zpow_neg, div_eq_mul_inv]
  norm_num

theorem decReal_of_exponent_pos {e m : Nat} (he : 1 ≤ e) (he' : e ≤ 7) (hm : m ≤ 127) :
    decReal (128 * e + m) = ((m : ℚ) + 128) * (2 : ℚ) ^ ((e : Int) - 7) := by
  have hexp : (128 * e + m) / 128 % 8 = e := by omega
  have hmant : (128 * e + m) % 128 = m := by omega
  rw [decReal_eq, hexp, hmant, if_neg (by omega)]

/-- Settles O35: one lemma for each bucket, and the pattern of 0. -/
theorem decValueByExponentField : Obligations.DecValueByExponentField := by
  refine fun e m he hm => ⟨decReal_zero, bits64_zero, ?_, fun hpos => decReal_of_exponent_pos hpos he hm⟩
  rintro rfl
  rw [mul_zero, zero_add]
  exact decReal_of_exponent_zero hm

/-- Every value of DEC is a multiple of 1/64, since no exponent is below -6 (R76). -/
theorem decReal_eq_natCast_div_64 (c : Nat) : ∃ n : Nat, decReal c = (n : ℚ) / 64 ∧ n ≤ 64 * 255 := by
  obtain ⟨m, k, hdec, -, hk, -⟩ := decReal_eq_natCast_mul_zpow c
  have hn : decReal c = ((m * 2 ^ (k + 6).toNat : Nat) : ℚ) / 64 := by
    have hpow : (2 : ℚ) ^ (k + 6).toNat = (2 : ℚ) ^ k * 64 := by
      rw [← zpow_natCast, Int.toNat_of_nonneg (by omega), zpow_add₀ two_ne_zero]
      norm_num
    rw [hdec]
    push_cast
    rw [hpow]
    ring
  refine ⟨_, hn, ?_⟩
  have hle := decReal_le c
  rw [hn, div_le_iff₀ (by norm_num)] at hle
  exact_mod_cast hle.trans_eq (mul_comm _ _)

-- ## The pattern, by the fields

theorem val_bits64_decReal (c : Nat) : val (bits64 (decReal c)) = .real (decReal c) := by
  obtain ⟨hzero, hbits⟩ | ⟨-, e, t, -, -, hbits, hval⟩ := bits64_decReal c
  · rw [hbits, hzero]
    exact val_zero
  · rw [hbits]
    exact hval

theorem signField_bits64_decReal (c : Nat) : signField (bits64 (decReal c)) = false := by
  obtain ⟨-, hbits⟩ | ⟨-, e, t, -, -, hbits, -⟩ := bits64_decReal c
  · rw [hbits]
    rfl
  · rw [hbits, signField_packReal]

theorem bits64_natCast_mul_zpow {m p : Nat} {k : Int} (hlow : 2 ^ p ≤ m) (hhigh : m < 2 ^ (p + 1)) (hp : p ≤ 52)
    (hmin : 1 ≤ p + k + 1023) (hmax : p + k + 1023 ≤ 2046) :
    bits64 ((m : ℚ) * (2 : ℚ) ^ k) = packReal false (p + k + 1023).toNat ((m - 2 ^ p) * 2 ^ (52 - p)) := by
  have hm : m ≠ 0 := (lt_of_lt_of_le (by positivity) hlow).ne'
  exact bits64_of_val (val_packReal_natCast_mul_zpow hlow hhigh hp hmin hmax)
    (mul_ne_zero (Nat.cast_ne_zero.2 hm) (zpow_ne_zero _ two_ne_zero))

/-- Bucket 0: the mantissa's highest set bit is the pattern's implicit one. -/
theorem bits64_decReal_of_exponent_zero {m p : Nat} (hm : m ≤ 127) (hlow : 2 ^ p ≤ m) (hhigh : m < 2 ^ (p + 1)) :
    p ≤ 6 ∧ bits64 (decReal m) = packReal false (1017 + p) ((m - 2 ^ p) * 2 ^ (52 - p)) := by
  have hp : p < 7 := (Nat.pow_lt_pow_iff_right one_lt_two).1 (show 2 ^ p < 2 ^ 7 by omega)
  refine ⟨by omega, ?_⟩
  rw [decReal_of_exponent_zero_eq_mul_zpow hm,
    bits64_natCast_mul_zpow hlow hhigh (by omega) (by omega) (by omega),
    show ((p : Int) + -6 + 1023).toNat = 1017 + p by omega]

/-- Bucket `e`: the window's 128 is the pattern's implicit one, the mantissa its top seven fraction bits. -/
theorem bits64_decReal_of_exponent_pos {e m : Nat} (he : 1 ≤ e) (he' : e ≤ 7) (hm : m ≤ 127) :
    bits64 (decReal (128 * e + m)) = packReal false (1023 + e) (m * 2 ^ 45) := by
  have hdec : decReal (128 * e + m) = ((m + 2 ^ 7 : Nat) : ℚ) * (2 : ℚ) ^ ((e : Int) - 7) := by
    rw [decReal_of_exponent_pos he he' hm]
    norm_num
  rw [hdec, bits64_natCast_mul_zpow (p := 7) (by omega) (by omega) (by omega) (by omega) (by omega),
    Nat.add_sub_cancel, show (((7 : Nat) : Int) + ((e : Int) - 7) + 1023).toNat = 1023 + e by omega]

/-- Settles O36: value, multiple of 1/64 and sign hold of every code; the fields are one lemma for each bucket. -/
theorem decPatternClosedForm : Obligations.DecPatternClosedForm := by
  intro v s e m he hm hcode
  obtain ⟨t, hexec, hspeed⟩ := exists_exec_dec v s
  obtain ⟨n, hn, hle⟩ := decReal_eq_natCast_div_64 (128 * e + m)
  rw [hcode] at hspeed
  refine ⟨t, n, hexec, ?_, hn, hle, ?_, ?_⟩
  all_goals rw [hspeed]
  · exact val_bits64_decReal _
  · exact signField_bits64_decReal _
  · refine ⟨?_, fun hpos => bits64_decReal_of_exponent_pos hpos he hm, ?_⟩
    · rintro rfl rfl
      exact bits64_zero
    · rintro p rfl
      rw [mul_zero, zero_add]
      exact bits64_decReal_of_exponent_zero hm

-- ## DEC from its helper unit

/-- The pattern of zero with sign 0 is `+0.0`. -/
theorem eq_zero_of_val_zero {b : Real64} (h : val b = .real 0) (hs : signField b = false) : b = 0 := by
  obtain ⟨neg, rfl⟩ := (val_eq_zero_iff b).1 h
  rw [signField_packReal] at hs
  subst hs
  rfl

/-- SCALE gives DEC's pattern on every operand whose scaled value is DEC's, a zero operand being `+0.0` (R71, R90). -/
theorem scalePort_eq_bits64_decReal {b : Real64} {x : ℚ} {k : Int} {c : Nat} (hb : val b = .real x)
    (hsign : x = 0 → signField b = false) (hx : decReal c = x * (2 : ℚ) ^ k) (d : BitVec 64) :
    scalePort b k d = bits64 (decReal c) := by
  by_cases h0 : x = 0
  · have hb0 : b = 0 := eq_zero_of_val_zero (h0 ▸ hb) (hsign h0)
    rw [hx, h0, zero_mul, bits64_zero, scalePort_zero (h0 ▸ hb), hb0]
  · exact scalePort_real hb h0 (hx ▸ val_bits64_decReal c) d

/-- SCALE and then DEC, evaluated where the operand scaled is DEC's value: the two output ports agree. -/
theorem decSpeed_eq_scY_of_value {v : Code16} {p : Real64} {k : BitVec 4} {x : ℚ} (s : State) (hp : val p = .real x)
    (hsign : x = 0 → signField p = false)
    (hx : decReal (v.extractLsb' 0 10).toNat = x * (2 : ℚ) ^ k.toInt) :
    ∃ c t, exec (.scale p k) s = .next c ∧ exec (.dec v) c = .next t ∧ t.decSpeed = c.scY := by
  obtain ⟨t, hexec, hspeed⟩ := exists_exec_dec v _
  exact ⟨_, t, exec_scale s p k, hexec, hspeed.trans (scalePort_eq_bits64_decReal hp hsign hx _).symm⟩

/-- Settles O58: in both buckets the operand scaled is DEC's value; only bucket 0's mantissa can be zero. -/
theorem decIsBuiltFromItsHelperUnit : Obligations.DecIsBuiltFromItsHelperUnit := by
  intro v e m p k s he hm hcode hzero hpos
  obtain rfl | hone := e.eq_zero_or_pos
  · obtain ⟨hp, hsign, hk⟩ := hzero rfl
    refine decSpeed_eq_scY_of_value s hp (fun _ => hsign) ?_
    rw [hcode, mul_zero, zero_add, decReal_of_exponent_zero_eq_mul_zpow hm, hk]
  · obtain ⟨hp, hk⟩ := hpos hone
    refine decSpeed_eq_scY_of_value s hp (fun h0 => ?_) ?_
    · have : (0 : ℚ) < m + 128 := by positivity
      exact absurd h0 this.ne'
    · rw [hcode, decReal_of_exponent_pos hone he hm, hk]

end Sys2Proof.Machine
end

section
/-! PROOFS. ILOG2: the logarithm on reals, its range on the positive patterns, the port and its draw, and the exponent
field (43_integer_log2.md). -/

namespace Sys2Proof.Machine

-- ## The logarithm on reals

/-- Settles O49: on each interval `ilog2Real` is the one integer its powers of two leave. -/
theorem ilog2IsExactAtPowersOfTwo : Obligations.Ilog2IsExactAtPowersOfTwo := by
  intro n
  constructor
  · rw [ilog2Real_eq_iff (by positivity)]
    exact ⟨le_rfl, zpow_lt_zpow_right₀ one_lt_two (lt_add_one n)⟩
  · intro x hlow hhigh
    have hx : 0 < x := lt_of_lt_of_le (by positivity) hlow
    rw [ilog2Real_eq_iff hx, sub_add_cancel]
    exact ⟨hlow, hhigh⟩

-- ## The positive patterns

theorem val_of_subnormal {b : Real64} (hs : signField b = false) (he : expField b = 0) :
    val b = .real ((fracField b : ℚ) * (2 : ℚ) ^ (-1074 : Int)) := by
  rw [val_of_finite (by omega), hs, if_pos he]
  rfl

theorem signField_of_val_pos {b : Real64} {x : ℚ} (h : val b = .real x) (hx : 0 < x) : signField b = false := by
  rw [val_of_finite (expField_of_val h), PortReal.real.injEq] at h
  rw [← Bool.not_eq_true]
  intro hs
  rw [hs, withSign, if_pos rfl] at h
  have : 0 ≤ -x := by
    rw [← h, neg_neg]
    split <;> positivity
  linarith

/-- A pattern that denotes a positive real has sign 0 and is either normal or subnormal (R38). -/
theorem normal_or_subnormal_of_val_pos {b : Real64} {x : ℚ} (h : val b = .real x) (hx : 0 < x) :
    (1 ≤ expField b ∧ expField b ≤ 2046 ∧ x = normalReal (expField b) (fracField b)) ∨
      (0 < fracField b ∧ x = (fracField b : ℚ) * (2 : ℚ) ^ (-1074 : Int)) := by
  have hs := signField_of_val_pos h hx
  have hE := expField_of_val h
  have hE' := expField_lt b
  obtain he | he := (expField b).eq_zero_or_pos
  · rw [val_of_subnormal hs he, PortReal.real.injEq] at h
    subst h
    exact .inr ⟨Nat.cast_pos.1 (pos_of_mul_pos_left hx (by positivity)), rfl⟩
  · rw [val_eq_normalReal hs he (by omega), PortReal.real.injEq] at h
    exact .inl ⟨he, by omega, h.symm⟩

/-- The logarithm of a positive binary64 real lies between those of the smallest subnormal and the largest normal one
(R83). -/
theorem ilog2Real_mem_of_val_pos {b : Real64} {x : ℚ} (h : val b = .real x) (hx : 0 < x) :
    -1074 ≤ ilog2Real x ∧ ilog2Real x ≤ 1023 := by
  have ht := fracField_lt b
  obtain ⟨he, he', rfl⟩ | ⟨h0, rfl⟩ := normal_or_subnormal_of_val_pos h hx
  · rw [ilog2Real_normalReal ht]
    omega
  · have hlog : (fracField b).log2 < 52 := (Nat.log2_lt h0.ne').2 ht
    rw [ilog2Real_subnormal h0 ht]
    omega

-- ## The port

/-- Off the positive reals the port carries the draw (R84). -/
theorem ilog2Port_eq_draw {b : Real64} (h : ¬ ∃ x, val b = .real x ∧ 0 < x) (d : BitVec 12) : ilog2Port b d = d := by
  cases hv : val b with
  | real x =>
    have hx : ¬ 0 < x := fun hx => h ⟨x, hv, hx⟩
    simp [ilog2Port, hv, hx]
  | inf neg => simp [ilog2Port, hv]
  | nan => simp [ilog2Port, hv]

/-- Settles O47: `exec`'s equation, and the port on and off the positive reals. -/
theorem ilog2EvaluatesItsPort : Obligations.Ilog2EvaluatesItsPort := fun b s =>
  ⟨_, exec_ilog2 s b, fun _ hv hx => ⟨ilog2Port_real hv hx _, ilog2Real_mem_of_val_pos hv hx⟩,
    fun h => ilog2Port_eq_draw h _⟩

/-- Twelve bits hold every logarithm of a positive pattern, so that the port reads back as the logarithm (R83). -/
theorem exists_exec_ilog2_toInt {b : Real64} {x : ℚ} (h : val b = .real x) (hx : 0 < x) (s : State) :
    ∃ t, exec (.ilog2 b) s = .next t ∧ t.lgY.toInt = ilog2Real x := by
  obtain ⟨hmin, hmax⟩ := ilog2Real_mem_of_val_pos h hx
  refine ⟨_, exec_ilog2 s b, ?_⟩
  rw [State.answer_lgY, State.driveIlog2_lgY, ilog2Port_real h hx]
  exact BitVec.toInt_ofInt_eq_self (by norm_num) (by omega) (by omega)

/-- Settles O48: the port reads back as the logarithm, which is the one integer with its bounds. -/
theorem ilog2IsTheFloorOfTheLogarithm : Obligations.Ilog2IsTheFloorOfTheLogarithm := by
  intro b x s hv hx
  obtain ⟨t, hexec, hlg⟩ := exists_exec_ilog2_toInt hv hx s
  obtain ⟨hlow, hhigh⟩ := ilog2Real_bounds hx
  exact ⟨t, ilog2Real x, hexec, hlg, hlow, hhigh, fun k hk hk' => ((ilog2Real_eq_iff hx k).2 ⟨hk, hk'⟩).symm⟩

-- ## The exponent field

/-- Settles O50: the port reads back as the logarithm, which the fields give on a normal magnitude and on a subnormal
one. -/
theorem ilog2IsTheExponentField : Obligations.Ilog2IsTheExponentField := by
  intro b s hs
  have ht := fracField_lt b
  constructor
  · intro he he'
    have hx : 0 < normalReal (expField b) (fracField b) := by
      unfold normalReal
      positivity
    rw [← ilog2Real_normalReal ht]
    exact exists_exec_ilog2_toInt (val_eq_normalReal hs he he') hx s
  · intro he hne p hlow hhigh
    have h0 : 0 < fracField b := Nat.pos_of_ne_zero hne
    have hlog : (fracField b).log2 = p := (Nat.log2_eq_iff hne).2 ⟨hlow, hhigh⟩
    rw [← hlog, ← ilog2Real_subnormal h0 ht]
    exact exists_exec_ilog2_toInt (val_of_subnormal hs he) (by positivity) s

end Sys2Proof.Machine
end

section
/-! PROOFS. SCALE: its two arms, its port and where the port draws, the sign of a product, and SCALE on the fields of a
normal pattern (44_scale_by_pow2.md). -/

namespace Sys2Proof.Machine

-- ## On reals

/-- Settles O52: each arm is the power with a natural exponent that `2^k` is on its side of zero. -/
theorem scaleIsMultiplicationByAPowerOfTwo : Obligations.ScaleIsMultiplicationByAPowerOfTwo := by
  intro v k
  rw [scaleReal_eq]
  refine ⟨rfl, fun hk => ?_, fun hk => ?_⟩
  · rw [← zpow_natCast, Int.toNat_of_nonneg hk]
  · rw [← zpow_natCast, Int.toNat_of_nonneg (by omega), zpow_neg, div_inv_eq_mul]

/-- Settles O54: a product with factor zero is zero, and the port keeps a zero pattern. -/
theorem scaleKeepsTheSignOfZero : Obligations.ScaleKeepsTheSignOfZero := by
  refine ⟨fun k => by rw [scaleReal_eq, zero_mul], fun b k s hb => ⟨_, exec_scale s b k, ?_⟩⟩
  rw [State.answer_scY, State.driveScale_scY, scalePort_zero hb]
  exact ⟨hb, rfl⟩

-- ## The port

/-- A product that no pattern denotes is a draw (R92). -/
theorem scalePort_eq_draw_of_product {b : Real64} {v : ℚ} {k : Int} (h : val b = .real v) (hv : v ≠ 0)
    (hq : ¬ ∃ q, val q = .real (v * (2 : ℚ) ^ k)) (d : BitVec 64) : scalePort b k d = d := by
  rw [← scaleReal_eq, ← representable_iff] at hq
  simp [scalePort, h, hv, hq]

/-- Off the finite patterns the port carries the draw (R93). -/
theorem scalePort_eq_draw_of_not_real {b : Real64} (h : ¬ ∃ v, val b = .real v) (k : Int) (d : BitVec 64) :
    scalePort b k d = d := by
  cases hv : val b with
  | real v => exact absurd ⟨v, hv⟩ h
  | inf neg => simp [scalePort, hv]
  | nan => simp [scalePort, hv]

/-- The sign of a non-zero real is its pattern's sign bit (R38). -/
theorem signField_of_val {b : Real64} {r : ℚ} (h : val b = .real r) (hr : r ≠ 0) : signField b = decide (r < 0) := by
  rw [← bits64_of_val h hr]
  simp only [bits64, hr, if_false]
  split <;> rw [signField_packReal]

/-- `2^k` is positive, so that the pattern of a product has the operand's sign bit (R93). -/
theorem signField_of_val_mul_zpow {b q : Real64} {v : ℚ} {k : Int} (h : val b = .real v) (hv : v ≠ 0)
    (hq : val q = .real (v * (2 : ℚ) ^ k)) : signField q = signField b := by
  have hpow : (0 : ℚ) < (2 : ℚ) ^ k := by positivity
  rw [signField_of_val hq (mul_ne_zero hv hpow.ne'), signField_of_val h hv, decide_eq_decide]
  simp [mul_neg_iff, hpow, hpow.not_gt]

/-- Settles O51: `exec`'s equation, and the port on each of its four classes of operand. -/
theorem scaleEvaluatesItsPort : Obligations.ScaleEvaluatesItsPort := by
  refine fun b k s => ⟨_, exec_scale s b k, fun h => scalePort_zero h _ _, fun v q h hv hq => ?_,
    fun v h hv hq => scalePort_eq_draw_of_product h hv hq _, fun h => scalePort_eq_draw_of_not_real h _ _⟩
  have hp : scalePort b (expOperand k) (Config.any64 s.draws) = q := scalePort_real h hv hq _
  exact ⟨hp, hp ▸ signField_of_val_mul_zpow h hv hq⟩

-- ## On the fields of a normal pattern

theorem withSign_mul (neg : Bool) (a c : ℚ) : withSign neg a * c = withSign neg (a * c) := by
  cases neg <;> simp [withSign]

/-- A normal pattern of either sign, by its fields. -/
theorem val_eq_withSign_normalReal {b : Real64} (he : 1 ≤ expField b) (he' : expField b ≤ 2046) :
    val b = .real (withSign (signField b) (normalReal (expField b) (fracField b))) := by
  have h := val_packReal_normal (s := signField b) he he' (fracField_lt b)
  rwa [packReal_fields] at h

theorem withSign_normalReal_ne_zero (neg : Bool) (e t : Nat) : withSign neg (normalReal e t) ≠ 0 := by
  have : 0 < normalReal e t := by
    unfold normalReal
    positivity
  exact fun h => this.ne' (withSign_eq_zero.1 h)

/-- SCALE by addition (R88, R91): from a normal exponent field to a normal one, the result has the operand's sign and
fraction and the sum as its exponent field, and denotes the exact product. -/
theorem exists_exec_scale_normal {b : Real64} {k : BitVec 4} {e : Nat} (hb : 1 ≤ expField b) (hb' : expField b ≤ 2046)
    (hsum : (expField b : Int) + k.toInt = e) (he : 1 ≤ e) (he' : e ≤ 2046) (s : State) :
    ∃ t, exec (.scale b k) s = .next t ∧ t.scY = packReal (signField b) e (fracField b) ∧
      val t.scY = .real (withSign (signField b) (normalReal (expField b) (fracField b)) * (2 : ℚ) ^ k.toInt) := by
  have hproduct : val (packReal (signField b) e (fracField b)) =
      .real (withSign (signField b) (normalReal (expField b) (fracField b)) * (2 : ℚ) ^ k.toInt) := by
    rw [withSign_mul, normalReal_mul_zpow hsum]
    exact val_packReal_normal he he' (fracField_lt b)
  have hport : scalePort b (expOperand k) (Config.any64 s.draws) = packReal (signField b) e (fracField b) :=
    scalePort_real (val_eq_withSign_normalReal hb hb') (withSign_normalReal_ne_zero _ _ _) hproduct _
  exact ⟨_, exec_scale s b k, hport, hport ▸ hproduct⟩

/-- Settles O53: the fields of the packed result read back. -/
theorem scaleAddsToTheExponentField : Obligations.ScaleAddsToTheExponentField := by
  intro b k s hb hb' hmin hmax
  obtain ⟨e, hsum⟩ := Int.eq_ofNat_of_zero_le (show 0 ≤ (expField b : Int) + k.toInt by omega)
  obtain ⟨t, hexec, hscY, -⟩ := exists_exec_scale_normal hb hb' hsum (by omega) (by omega) s
  have hfrac := Nat.mod_eq_of_lt (fracField_lt b)
  have hexp : e % 2048 = e := Nat.mod_eq_of_lt (by omega)
  refine ⟨t, hexec, ?_⟩
  rw [hscY, signField_packReal, fracField_packReal, expField_packReal, hfrac, hexp]
  exact ⟨rfl, rfl, hsum.symm⟩

-- ## Where the product is exact

/-- The pattern with the sign cleared denotes the absolute value (R38). -/
theorem exists_pattern_abs {b : Real64} {v : ℚ} (h : val b = .real v) :
    ∃ c, expField c = expField b ∧ fracField c = fracField b ∧ val c = .real |v| := by
  have he : expField (packReal false (expField b) (fracField b)) = expField b := by
    rw [expField_packReal, Nat.mod_eq_of_lt (expField_lt b)]
  have ht : fracField (packReal false (expField b) (fracField b)) = fracField b := by
    rw [fracField_packReal, Nat.mod_eq_of_lt (fracField_lt b)]
  have hE := expField_of_val h
  refine ⟨_, he, ht, ?_⟩
  rw [val_of_finite hE, PortReal.real.injEq] at h
  rw [val_of_finite (by rwa [he]), he, ht, signField_packReal, PortReal.real.injEq, ← h]
  generalize ha : (if expField b = 0 then _ else _ : ℚ) = a
  have hnonneg : 0 ≤ a := by
    rw [← ha]
    split <;> positivity
  cases signField b <;> simp [withSign, abs_of_nonneg hnonneg]

theorem ilog2Real_mem_of_zpow_bounds {x : ℚ} {m n : Int} (hm : (2 : ℚ) ^ m ≤ x) (hn : x < (2 : ℚ) ^ n) :
    m ≤ ilog2Real x ∧ ilog2Real x < n := by
  have hx : 0 < x := lt_of_lt_of_le (by positivity) hm
  obtain ⟨hlow, hhigh⟩ := ilog2Real_bounds hx
  have hmlog := (zpow_lt_zpow_iff_right₀ (one_lt_two (α := ℚ))).1 (hm.trans_lt hhigh)
  have hlogn := (zpow_lt_zpow_iff_right₀ (one_lt_two (α := ℚ))).1 (hlow.trans_lt hn)
  omega

/-- From the smallest normal magnitude `2^-1022` on, the exponent field is the logarithm's with the bias (R38). -/
theorem expField_of_zpow_bounds {b : Real64} {v : ℚ} {m n : Int} (h : val b = .real v) (hmin : -1022 ≤ m)
    (hm : (2 : ℚ) ^ m ≤ |v|) (hn : |v| < (2 : ℚ) ^ n) : m + 1023 ≤ expField b ∧ (expField b : Int) < n + 1023 := by
  have hpos : 0 < |v| := lt_of_lt_of_le (by positivity) hm
  have ht := fracField_lt b
  have hlog := ilog2Real_mem_of_zpow_bounds hm hn
  obtain ⟨c, hexp, hfrac, hc⟩ := exists_pattern_abs h
  obtain ⟨-, -, hnormal⟩ | ⟨h0, hsubnormal⟩ := normal_or_subnormal_of_val_pos hc hpos
  · rw [hnormal, hexp, hfrac, ilog2Real_normalReal ht] at hlog
    omega
  · rw [hfrac] at h0 hsubnormal
    have hlog2 : (fracField b).log2 < 52 := (Nat.log2_lt h0.ne').2 ht
    rw [hsubnormal, ilog2Real_subnormal h0 ht] at hlog
    omega

/-- Settles O55: the bounds leave exponent fields 9 to 2039, and no exponent on `sc_exp` takes these out of 1 to 2046. -/
theorem scaleDrawsOnlyAtExtremeMagnitudes : Obligations.ScaleDrawsOnlyAtExtremeMagnitudes := by
  intro b k v s hb hlow hhigh
  obtain ⟨he, he'⟩ := expField_of_zpow_bounds hb (by norm_num) hlow hhigh
  have hk : -8 ≤ k.toInt := BitVec.le_toInt k
  have hk' : k.toInt < 8 := BitVec.toInt_lt
  obtain ⟨e, hsum⟩ := Int.eq_ofNat_of_zero_le (show 0 ≤ (expField b : Int) + k.toInt by omega)
  obtain ⟨t, hexec, -, hval⟩ := exists_exec_scale_normal (by omega) (by omega) hsum (by omega) (by omega) s
  rw [val_eq_withSign_normalReal (by omega) (by omega), PortReal.real.injEq] at hb
  rw [hb] at hval
  exact ⟨t, hexec, hval⟩

end Sys2Proof.Machine
end

section
/-! PROOFS. The pair ENC, DEC: both count the steps of a bucket, from which the round trip, monotonicity, the precision
bound and the projections follow (45_properties.md). -/

namespace Sys2Proof.Machine

-- ## The speeds of a bucket, and ENC on them

theorem rhaz_zero : rhaz 0 = 0 := rhaz_natCast 0

/-- Speed `x`, up to 255, is `w` steps of bucket `e`'s step `2^(e-7)`, and lies in what that bucket covers (R35).
Buckets 0 and 1 have one step and are taken together as bucket 1. -/
structure InBucket (e : Nat) (w x : ℚ) : Prop where
  eq_mul : x = w * (2 : ℚ) ^ ((e : Int) - 7)
  one_le : 1 ≤ e
  le_seven : e ≤ 7
  nonneg : 0 ≤ w
  lt : w < 256
  ge : e = 1 ∨ 128 ≤ w
  le_of_last : e = 7 → w ≤ 255

namespace InBucket

variable {e : Nat} {w x : ℚ}

theorem mul_zpow (h : InBucket e w x) : x * (2 : ℚ) ^ (7 - (e : Int)) = w := by
  rw [h.eq_mul, mul_assoc, ← zpow_add₀ two_ne_zero, sub_add_sub_cancel, sub_self, zpow_zero, mul_one]

theorem speed_nonneg (h : InBucket e w x) : 0 ≤ x := by
  rw [h.eq_mul]
  exact mul_nonneg h.nonneg (by positivity)

theorem lt_two_zpow (h : InBucket e w x) : x < (2 : ℚ) ^ ((e : Int) + 1) := by
  calc x = w * (2 : ℚ) ^ ((e : Int) - 7) := h.eq_mul
    _ < 256 * (2 : ℚ) ^ ((e : Int) - 7) := mul_lt_mul_of_pos_right h.lt (by positivity)
    _ = (2 : ℚ) ^ ((e : Int) + 1) := by
        rw [show (256 : ℚ) = 2 ^ (8 : Int) by norm_num, ← zpow_add₀ two_ne_zero]
        ring_nf

theorem two_zpow_le (h : InBucket e w x) (he : e ≠ 1) : (2 : ℚ) ^ (e : Int) ≤ x := by
  calc (2 : ℚ) ^ (e : Int) = 128 * (2 : ℚ) ^ ((e : Int) - 7) := by
        rw [show (128 : ℚ) = 2 ^ (7 : Int) by norm_num, ← zpow_add₀ two_ne_zero]
        ring_nf
    _ ≤ w * (2 : ℚ) ^ ((e : Int) - 7) := mul_le_mul_of_nonneg_right (h.ge.resolve_left he) (by positivity)
    _ = x := h.eq_mul.symm

theorem speed_le (h : InBucket e w x) : x ≤ 255 := by
  obtain h7 | rfl := h.le_seven.lt_or_eq
  · have hpow : (2 : ℚ) ^ ((e : Int) + 1) ≤ (2 : ℚ) ^ (7 : Int) := zpow_le_zpow_right₀ one_le_two (by omega)
    norm_num at hpow
    linarith [h.lt_two_zpow]
  · have hx := h.eq_mul
    norm_num at hx
    linarith [h.le_of_last rfl]

/-- The step of the bucket is R102's, which tells the buckets apart by the speed. -/
theorem stepSize_eq (h : InBucket e w x) : stepSize x = (2 : ℚ) ^ ((e : Int) - 7) := by
  have hlt := h.lt_two_zpow
  have hge := h.two_zpow_le
  obtain ⟨-, he, he', -, -, -, -⟩ := h
  interval_cases e <;> norm_num at hlt hge ⊢
  all_goals
    unfold stepSize
    split_ifs <;> linarith

/-- ENC's own branch point lies inside bucket 1. -/
theorem linear_or_exponent (h : InBucket e w x) : x ≤ 2 ∧ e = 1 ∨ 2 < x ∧ (2 : ℚ) ^ (e : Int) ≤ x := by
  by_cases he : e = 1
  · subst he
    obtain hx | hx := le_or_gt x 2
    · exact .inl ⟨hx, rfl⟩
    · exact .inr ⟨hx, by norm_num; exact hx.le⟩
  · have hge := h.two_zpow_le he
    have hpow : (2 : ℚ) ^ (2 : Int) ≤ (2 : ℚ) ^ (e : Int) :=
      zpow_le_zpow_right₀ one_le_two (by have := h.one_le; omega)
    norm_num at hpow
    exact .inr ⟨by norm_num at hge; linarith, hge⟩

/-- ENC counts the steps, rounded, from code `128(e - 1)`, that of no step (R68 (a)). -/
theorem encReal_add (h : InBucket e w x) : encReal x + 128 = 128 * e + rhaz w := by
  obtain hzero | hpos := h.speed_nonneg.eq_or_lt
  · obtain ⟨-, rfl⟩ | ⟨hx, -⟩ := h.linear_or_exponent
    · rw [← h.mul_zpow, ← hzero, zero_mul, encReal_low le_rfl, rhaz_zero]
      rfl
    · linarith
  · have hclosed : encReal x = 128 * ((e : Int) - 1) + rhaz (min x 255 * (2 : ℚ) ^ (7 - (e : Int))) := by
      refine encClosedForm x e ?_
      rw [min_eq_left h.speed_le]
      obtain ⟨hx, rfl⟩ | ⟨hx, hge⟩ := h.linear_or_exponent
      · exact .inl ⟨hpos, hx, rfl⟩
      · exact .inr ⟨hx, hge, h.lt_two_zpow⟩
    rw [hclosed, min_eq_left h.speed_le, h.mul_zpow]
    ring

theorem rhaz_mem (h : InBucket e w x) : 0 ≤ rhaz w ∧ rhaz w ≤ 256 ∧ (e = 1 ∨ 128 ≤ rhaz w) :=
  ⟨rhaz_nonneg h.nonneg, rhaz_le_natCast (n := 256) h.nonneg (by push_cast; exact h.lt.le),
    h.ge.imp_right fun hw => (rhaz_natCast 128).symm.trans_le (rhaz_mono (by norm_num) hw)⟩

end InBucket

theorem exists_inBucket {x : ℚ} (h0 : 0 ≤ x) (h255 : x ≤ 255) : ∃ e w, InBucket e w x := by
  obtain hx | hx := le_or_gt x 2
  · refine ⟨1, x * 64, ?_, le_rfl, by norm_num, by positivity, by linarith, .inl rfl, by norm_num⟩
    norm_num
    ring
  · obtain ⟨he, he'⟩ := encExponent_mem hx
    obtain ⟨hw, hw'⟩ := encWindow_mem hx
    have hwin := encWindow_eq x
    rw [min_eq_left h255] at hwin
    lift encExponent x to Nat using by omega with e
    refine ⟨e, encWindow x, ?_, by omega, by omega, by linarith, hw', .inr hw, ?_⟩
    · rw [hwin, mul_assoc, ← zpow_add₀ two_ne_zero]
      norm_num
    · rintro rfl
      norm_num at hwin
      linarith

/-- A later bucket holds greater speeds. -/
theorem InBucket.bucket_le {e e' : Nat} {w w' x x' : ℚ} (h : InBucket e w x) (h' : InBucket e' w' x') (hle : x ≤ x') :
    e ≤ e' := by
  by_contra hlt
  have hge := h.two_zpow_le (by have := h'.one_le; omega)
  have hpow : (2 : ℚ) ^ ((e' : Int) + 1) ≤ (2 : ℚ) ^ (e : Int) := zpow_le_zpow_right₀ one_le_two (by omega)
  linarith [h'.lt_two_zpow]

-- ## ENC is monotone

/-- In one bucket the steps grow with the speed; from one bucket to a later one the code grows by 128 or more, and no
rounding takes the steps above 256 or, in the later bucket, below 128. -/
theorem InBucket.encReal_le {e e' : Nat} {w w' x x' : ℚ} (h : InBucket e w x) (h' : InBucket e' w' x')
    (hle : x ≤ x') : encReal x ≤ encReal x' := by
  have hadd := h.encReal_add
  have hadd' := h'.encReal_add
  obtain hlt | rfl := (h.bucket_le h' hle).lt_or_eq
  · obtain ⟨-, hmax, -⟩ := h.rhaz_mem
    obtain ⟨-, -, hmin⟩ := h'.rhaz_mem
    have hone := h.one_le
    omega
  · have hw : w ≤ w' := by
      rw [← h.mul_zpow, ← h'.mul_zpow]
      exact mul_le_mul_of_nonneg_right hle (by positivity)
    have hround := rhaz_mono h.nonneg hw
    omega

/-- Outside `[0, 255]` ENC is constant (R60, R62). -/
theorem encReal_clamp (x : ℚ) : encReal (max 0 (min x 255)) = encReal x := by
  obtain hneg | hpos := le_or_gt x 0
  · rw [min_eq_left (by linarith), max_eq_left hneg, encReal_low le_rfl, encReal_low hneg]
  · obtain hle | hgt := le_or_gt x 255
    · rw [min_eq_left hle, max_eq_right hpos.le]
    · rw [min_eq_right hgt.le, max_eq_right (by norm_num), encReal_of_255_le le_rfl, encReal_of_255_le hgt.le]

theorem monotone_encReal : Monotone encReal := by
  intro a b hle
  rw [← encReal_clamp a, ← encReal_clamp b]
  obtain ⟨e, w, h⟩ := exists_inBucket (x := max 0 (min a 255)) (le_max_left _ _) (by simp)
  obtain ⟨e', w', h'⟩ := exists_inBucket (x := max 0 (min b 255)) (le_max_left _ _) (by simp)
  exact h.encReal_le h' (max_le_max_left 0 (min_le_min_right 255 hle))

/-- Settles O29: ENC is monotone, is 1023 at the tie 254.5, and is never more. -/
theorem encSaturates : Obligations.EncSaturates := by
  refine ⟨encReal_of_255_le le_rfl, encReal_of_255_le (by norm_num), fun speed hspeed => ?_⟩
  obtain ⟨-, -, -, -, htie⟩ := encTiesGoAwayFromZero
  exact (encReal_mem speed).2.antisymm (htie ▸ monotone_encReal hspeed)

-- ## DEC on the steps of a bucket

/-- DEC undoes the count of steps, a full bucket's 256 being the next bucket's first value (R73 to R75). -/
theorem decReal_of_add_eq {e n c : Nat} (he : 1 ≤ e) (he' : e ≤ 7) (hn : e = 1 ∨ 128 ≤ n) (hn' : n ≤ 256)
    (hadd : c + 128 = 128 * e + n) (hc : c ≤ 1023) : decReal c = n * (2 : ℚ) ^ ((e : Int) - 7) := by
  obtain hlow | hmid | rfl : n < 128 ∨ (128 ≤ n ∧ n < 256) ∨ n = 256 := by omega
  · obtain rfl : e = 1 := by omega
    obtain rfl : c = n := by omega
    exact decReal_of_exponent_zero_eq_mul_zpow (by omega)
  · obtain ⟨m, rfl⟩ := Nat.exists_eq_add_of_le' hmid.1
    obtain rfl : c = 128 * e + m := by omega
    rw [decReal_of_exponent_pos he he' (by omega)]
    push_cast
    rfl
  · obtain rfl : c = 128 * (e + 1) + 0 := by omega
    rw [decReal_of_exponent_pos (by omega) (by omega) (by omega),
      show ((e + 1 : Nat) : Int) - 7 = ((e : Int) - 7) + 1 by push_cast; ring, zpow_add_one₀ two_ne_zero]
    push_cast
    ring

/-- Every grid value is a whole number of its bucket's steps. -/
theorem exists_inBucket_decReal {c : Nat} (hc : c ≤ 1023) :
    ∃ e n : Nat, n ≤ 255 ∧ c + 128 = 128 * e + n ∧ InBucket e n (decReal c) := by
  obtain ⟨e, n, he, he', hn, hn', hadd⟩ : ∃ e n : Nat,
      1 ≤ e ∧ e ≤ 7 ∧ (e = 1 ∨ 128 ≤ n) ∧ n ≤ 255 ∧ c + 128 = 128 * e + n := by
    obtain hlow | hhigh := lt_or_ge c 128
    · exact ⟨1, c, by omega⟩
    · exact ⟨c / 128, c % 128 + 128, by omega⟩
  have hn'' : (n : ℚ) ≤ 255 := by exact_mod_cast hn'
  exact ⟨e, n, hn', hadd, decReal_of_add_eq he he' hn (by omega) hadd hc, he, he', by positivity, by linarith,
    hn.imp_right fun h => by exact_mod_cast h, fun _ => hn''⟩

-- ## ENC after DEC

/-- R96: a whole number of steps is not changed by rounding. -/
theorem encReal_decReal {c : Nat} (hc : c ≤ 1023) : encReal (decReal c) = c := by
  obtain ⟨e, n, -, hadd, h⟩ := exists_inBucket_decReal hc
  have henc := h.encReal_add
  rw [rhaz_natCast] at henc
  omega

/-- The round trip on the ports of two evaluations. -/
theorem exists_exec_dec_enc (v : Code16) (s : State) : ∃ t u, exec (.dec v) s = .next t ∧
    exec (.enc t.decSpeed) t = .next u ∧ u.encCode = (v.extractLsb' 0 10).setWidth 16 := by
  have hc : (v.extractLsb' 0 10).toNat ≤ 1023 := Nat.le_of_lt_succ (BitVec.isLt _)
  obtain ⟨t, hdec, hspeed⟩ := exists_exec_dec v s
  obtain ⟨u, henc, hcode, -⟩ := exists_exec_enc_of_real (hspeed ▸ val_bits64_decReal _) t
  rw [encReal_decReal hc, BitVec.ofInt_natCast, BitVec.ofNat_toNat] at hcode
  exact ⟨t, u, hdec, henc, hcode⟩

/-- Settles O38: ENC inverts DEC on the codes, so that it is onto them and DEC one-to-one. -/
theorem gridRoundTripIsLossless : Obligations.GridRoundTripIsLossless := by
  refine ⟨fun c => encReal_decReal, fun c hc => ⟨_, encReal_decReal hc⟩, fun c c' hc hc' heq => ?_, exists_exec_dec_enc⟩
  have henc := congrArg encReal heq
  rw [encReal_decReal hc, encReal_decReal hc'] at henc
  exact_mod_cast henc

theorem decReal_lt_of_lt {a b : Nat} (hlt : a < b) (hb : b ≤ 1023) : decReal a < decReal b := by
  by_contra hle
  have henc := monotone_encReal (not_lt.1 hle)
  rw [encReal_decReal hb, encReal_decReal (by omega)] at henc
  omega

/-- Settles O40: a monotone ENC that inverts DEC leaves no two codes out of order. -/
theorem codecIsMonotone : Obligations.CodecIsMonotone := by
  have h1024 : decReal 1024 = 0 := (decReal_mod_1024 1024).symm
  refine ⟨fun a b => decReal_lt_of_lt, fun a b hle => monotone_encReal hle, h1024, ?_⟩
  rw [h1024, ← decReal_zero]
  exact decReal_lt_of_lt (by norm_num) le_rfl

/-- On every class of pattern ENC's port holds a ten-bit number (R69). -/
theorem toNat_encPort_lt (b : Real64) (d : BitVec 10) : (encPort b d).toNat < 1024 := by
  match hval : val b with
  | .real x =>
    have hmem := encReal_mem x
    rw [encPort_real hval, BitVec.toNat_ofInt]
    omega
  | .inf true =>
    rw [encPort_negInf hval]
    decide
  | .inf false =>
    rw [encPort_posInf hval]
    decide
  | .nan =>
    rw [encPort_nan hval, BitVec.toNat_append]
    simpa using d.isLt

theorem extractLsb'_of_toNat_lt {v : Code16} (h : v.toNat < 1024) : v.extractLsb' 10 6 = 0 := by
  apply BitVec.eq_of_toNat_eq
  rw [BitVec.extractLsb'_toNat, Nat.shiftRight_eq_div_pow, Nat.div_eq_of_lt h]
  rfl

/-- Settles O28: the bounds of the code, and of the number on the port. -/
theorem encResultAlwaysFitsTenBits : Obligations.EncResultAlwaysFitsTenBits :=
  ⟨encReal_mem, fun b s => ⟨_, exec_enc s b, extractLsb'_of_toNat_lt (toNat_encPort_lt b _)⟩⟩

-- ## DEC after ENC

theorem toNat_encReal_le (x : ℚ) : (encReal x).toNat ≤ 1023 := by
  have := encReal_mem x
  omega

theorem natCast_toNat_encReal (x : ℚ) : ((encReal x).toNat : Int) = encReal x :=
  Int.toNat_of_nonneg (encReal_mem x).1

/-- The composite rounds the number of steps. -/
theorem InBucket.decReal_encReal {e : Nat} {w x : ℚ} (h : InBucket e w x) :
    decReal (encReal x).toNat = rhaz w * (2 : ℚ) ^ ((e : Int) - 7) := by
  obtain ⟨h0, hmax, hmin⟩ := h.rhaz_mem
  have hadd := h.encReal_add
  have hcast := natCast_toNat_encReal x
  lift rhaz w to Nat using h0 with n
  exact decReal_of_add_eq h.one_le h.le_seven (by omega) (by omega) (by omega) (toNat_encReal_le x)

theorem InBucket.abs_decReal_encReal_sub {e : Nat} {w x : ℚ} (h : InBucket e w x) :
    |decReal (encReal x).toNat - x| = |(rhaz w : ℚ) - w| * stepSize x := by
  have hstep : 0 ≤ (2 : ℚ) ^ ((e : Int) - 7) := by positivity
  rw [h.decReal_encReal, h.stepSize_eq, ← abs_of_nonneg hstep, ← abs_mul, abs_of_nonneg hstep, sub_mul, ← h.eq_mul]

/-- R102: rounding moves the number of steps by at most one half. -/
theorem abs_decReal_encReal_sub_le_half {x : ℚ} (h0 : 0 ≤ x) (h255 : x ≤ 255) :
    |decReal (encReal x).toNat - x| ≤ stepSize x / 2 := by
  obtain ⟨e, w, h⟩ := exists_inBucket h0 h255
  have hstep : 0 ≤ stepSize x := by
    rw [h.stepSize_eq]
    positivity
  have hround : |(rhaz w : ℚ) - w| ≤ 1 / 2 := by
    obtain ⟨hlow, hhigh⟩ := rhaz_bounds h.nonneg
    rw [abs_le]
    constructor <;> linarith
  calc |decReal (encReal x).toNat - x| = |(rhaz w : ℚ) - w| * stepSize x := h.abs_decReal_encReal_sub
    _ ≤ 1 / 2 * stepSize x := mul_le_mul_of_nonneg_right hround hstep
    _ = stepSize x / 2 := by ring

theorem abs_decReal_encReal_sub_le {x : ℚ} (h0 : 0 ≤ x) (h255 : x ≤ 255) :
    |decReal (encReal x).toNat - x| ≤ stepSize x := by
  have hhalf := abs_decReal_encReal_sub_le_half h0 h255
  linarith [abs_nonneg (decReal (encReal x).toNat - x)]

/-- Two neighbouring grid values are one step apart in the bucket of the lower one, also where the upper one begins the
next bucket. -/
theorem exists_inBucket_midpoint {c : Nat} (hc : c ≤ 1022) :
    ∃ e n : Nat, InBucket e (n + 1 / 2) ((decReal c + decReal (c + 1)) / 2) := by
  obtain ⟨e, n, hn, hadd, h⟩ := exists_inBucket_decReal (c := c) (by omega)
  have hge : e = 1 ∨ 128 ≤ n := h.ge.imp_right fun hw => by exact_mod_cast hw
  have hnext := decReal_of_add_eq (n := n + 1) h.one_le h.le_seven (by omega) (by omega)
    (show c + 1 + 128 = 128 * e + (n + 1) by omega) (by omega)
  have hn' : (n : ℚ) ≤ 255 := by exact_mod_cast hn
  refine ⟨e, n, ?_, h.one_le, h.le_seven, by positivity, by linarith, ?_, ?_⟩
  · rw [hnext, h.eq_mul]
    push_cast
    ring
  · exact h.ge.imp_right fun hw => by linarith
  · intro h7
    have hlast : (n : ℚ) ≤ 254 := by exact_mod_cast (show n ≤ 254 by omega)
    linarith

/-- Settles O42: the composite's error is that of rounding the number of steps, and a midpoint is half a step off. -/
theorem precisionIsHalfAStep : Obligations.PrecisionIsHalfAStep := by
  refine ⟨fun x h0 => abs_decReal_encReal_sub_le h0.le, fun x => abs_decReal_encReal_sub_le_half, ?_⟩
  rintro c _ hc rfl
  obtain ⟨e, n, h⟩ := exists_inBucket_midpoint hc
  have hround : rhaz ((n : ℚ) + 1 / 2) = (n : Int) + 1 :=
    (rhaz_eq_iff h.nonneg _).2 (by push_cast; constructor <;> linarith)
  rw [h.abs_decReal_encReal_sub, hround]
  push_cast
  rw [add_sub_add_left_eq_sub]
  norm_num
  ring

/-- Settles O41: the parts are ENC's and DEC's monotonicity, ENC's range, the precision bound, and ENC's two constants. -/
theorem compositeIsAMonotoneStepFunction : Obligations.CompositeIsAMonotoneStepFunction := by
  refine ⟨fun a b hle => ?_, fun x => ⟨_, toNat_encReal_le x, rfl⟩, fun x => abs_decReal_encReal_sub_le,
    fun x hx => ?_, fun x hx => ?_⟩
  · obtain heq | hlt := (Int.toNat_le_toNat (monotone_encReal hle)).eq_or_lt
    · rw [heq]
    · exact (decReal_lt_of_lt hlt (toNat_encReal_le b)).le
  · rw [encReal_low hx]
    exact decReal_zero
  · obtain ⟨-, -, hsat⟩ := encSaturates
    have h1023 := decReal_of_exponent_pos (e := 7) (m := 127) (by norm_num) le_rfl le_rfl
    rw [hsat x hx]
    exact h1023.trans (by norm_num)

/-- Settles O43: ENC answers a code, on which ENC inverts DEC. -/
theorem passesThroughTheGridAreProjections : Obligations.PassesThroughTheGridAreProjections := by
  have hgrid : ∀ c ≤ 1023, decReal (encReal (decReal c)).toNat = decReal c := fun c hc => by
    rw [encReal_decReal hc, Int.toNat_natCast]
  refine ⟨hgrid, fun x => ?_, fun x => ⟨fun h => ⟨_, toNat_encReal_le x, h.symm⟩, ?_⟩⟩
  · rw [encReal_decReal (toNat_encReal_le x), natCast_toNat_encReal]
  · rintro ⟨c, hc, rfl⟩
    exact hgrid c hc

-- ## Known values

/-- Settles O39: the low clamp, and DEC's code 0. -/
theorem zeroAndNegativeClamp : Obligations.ZeroAndNegativeClamp :=
  ⟨fun _ => encReal_low, decReal_zero⟩

/-- The first value of a bucket. -/
theorem decReal_bucket_start {e : Nat} (he : 1 ≤ e) (he' : e ≤ 7) : decReal (128 * e) = (2 : ℚ) ^ e := by
  rw [← Nat.add_zero (128 * e), decReal_of_exponent_pos he he' (by norm_num), zpow_sub₀ two_ne_zero]
  norm_num
  ring

theorem encReal_two_pow {e : Nat} (he : 1 ≤ e) (he' : e ≤ 7) : encReal ((2 : ℚ) ^ e) = 128 * e := by
  rw [← decReal_bucket_start he he', encReal_decReal (by omega)]
  push_cast
  rfl

/-- Settles O44: a power of two is the first value of its bucket, which the round trip gives back. -/
theorem powersOfTwoAreExact : Obligations.PowersOfTwoAreExact := by
  refine ⟨?_, ?_, ?_, fun n he he' => ⟨encReal_two_pow he he', decReal_bucket_start he he'⟩⟩
  · simpa using encReal_two_pow (e := 1) le_rfl (by norm_num)
  · exact_mod_cast rhaz_natCast 128
  · exact (ilog2Real_eq_iff (by norm_num) 3).2 (by norm_num)

/-- Settles O45: the operations evaluated on the known values. -/
theorem knownValues : Obligations.KnownValues := by
  unfold Obligations.KnownValues
  decide +kernel

end Sys2Proof.Machine
end

section
/-! PROOFS. A step always answers a next state (60_exceptions.md). -/

namespace Sys2Proof.Machine

theorem exists_exec_eq_next (i : Instr) (s : State) : ∃ t, exec i s = .next t := by
  cases i with
  | enc b => exact ⟨_, exec_enc s b⟩
  | dec v => exact ⟨_, exec_dec s v⟩
  | ilog2 b => exact ⟨_, exec_ilog2 s b⟩
  | scale b k => exact ⟨_, exec_scale s b k⟩

/-- A step is idle or one evaluation, and both complete. -/
theorem stepCompletes (s : State) : StepCompletes s := by
  cases hp : s.pending with
  | nil => exact ⟨s, step_of_nil hp⟩
  | cons w rest =>
    obtain ⟨t, ht⟩ := exists_exec_eq_next (decodeWord w) { s with pending := rest }
    exact ⟨t, (step_of_cons hp).trans ht⟩

/-- Settles O14: every step answers a next state, and a next state is neither a fault nor a refusal. -/
theorem noStepFaultsOrIsRefused : Obligations.NoStepFaultsOrIsRefused := by
  intro s
  obtain ⟨t, ht⟩ := stepCompletes s
  refine ⟨⟨t, ht⟩, fun f hf => ?_, fun r hr => ?_⟩
  · cases ht.symm.trans hf
  · cases ht.symm.trans hr

end Sys2Proof.Machine
end

section
/-! PROOFS. The host's list of `n` operations ends after `n` steps (70_reset_and_hazards.md). -/

namespace Sys2Proof.Machine

/-- An evaluation leaves the host's list alone and uses one draw index. -/
theorem pending_draws_of_exec {i : Instr} {s t : State} (h : exec i s = .next t) :
    t.pending = s.pending ∧ t.draws = s.draws + 1 := by
  cases i with
  | enc b =>
    rw [exec_enc] at h
    cases h
    simp
  | dec v =>
    rw [exec_dec] at h
    cases h
    simp
  | ilog2 b =>
    rw [exec_ilog2] at h
    cases h
    simp
  | scale b k =>
    rw [exec_scale] at h
    cases h
    simp

/-- A step with a word pending completes, takes that word from the list and uses one draw index. -/
theorem exists_step_of_cons {s : State} {w : OpWord} {rest : List OpWord} (h : s.pending = w :: rest) :
    ∃ t, step s = .next t ∧ t.pending = rest ∧ t.draws = s.draws + 1 := by
  obtain ⟨t, ht⟩ := exists_exec_eq_next (decodeWord w) { s with pending := rest }
  exact ⟨t, (step_of_cons h).trans ht, pending_draws_of_exec ht⟩

theorem run_succ_of_step {M : Host.Core} {s t : M.State} (h : M.step s = .next t) (k : Nat) :
    M.run (k + 1) s = M.run k t := by
  rw [Host.Core.run, h]

/-- Settles O15, by induction on the list of pending words: each step takes one word and one draw index. -/
theorem pendingOperationsEndInAsManySteps : Obligations.PendingOperationsEndInAsManySteps := by
  intro s
  induction hp : s.pending generalizing s with
  | nil => exact ⟨s, rfl, hp, rfl⟩
  | cons w rest ih =>
    obtain ⟨u, hstep, hpending, hdraws⟩ := exists_step_of_cons hp
    obtain ⟨t, hrun, hnone, htotal⟩ := ih u hpending
    refine ⟨t, (run_succ_of_step (M := Sys2Proof.core) hstep rest.length).trans hrun, hnone, ?_⟩
    rw [htotal, hdraws, List.length_cons]
    omega

end Sys2Proof.Machine
end
